-- ==== Sys2Proof/Word.lean ====
section
/-! DEFINITION. The word types of the TB+HB block (spec/00_scope.md R10): a byte is 8 bits, bit 0 is the
least significant bit, and all multi-byte values of the block are 16 or 32 bits wide (R7). -/

namespace Sys2Proof

/-- A byte, `u8` of R10. -/
abbrev Byte := BitVec 8

/-- A 16-bit pattern: the operand `v` of `SET`, a duty, a position field (R7, R10). -/
abbrev Half := BitVec 16

/-- A 32-bit pattern: the angle field (R7, R10). -/
abbrev Word := BitVec 32

end Sys2Proof
end

