-- ==== Sys2Proof/Config.lean ====
section
/-! DEFINITION. What an implementation of the block fixes (spec/00_scope.md R8): the start marker, the watchdog
width and the watchdog threshold, each OPEN in the spec; and the one free choice the spec leaves to the
environment, the order of the two agents' steps (R59, R78). None of them has a value here. -/

namespace Sys2Proof

/-- The open parameters of R8. The watchdog's two parameters are held so that the constraints of R8
(`WD_WIDTH ≥ 1`, `1 ≤ WD_THRESHOLD ≤ WD_MAX`) hold for every value of the fields, and so that every pair
R8 allows is given by some values of the fields (notes/assumptions/2.md). -/
structure Params where
  /-- `START_MARKER`, any byte. -/
  startMarker : Byte
  /-- `WD_WIDTH − 1`. -/
  wdWidthPred : Nat
  /-- any number; `WD_THRESHOLD − 1` is its remainder modulo `WD_MAX` -/
  wdThresholdSeed : Nat
  deriving DecidableEq, Repr, Inhabited

/-- The parameters of the device: no body, so a claim about the machine holds for every value R8 allows. -/
opaque Config.params : Params

/-- The two agents of R13. The environment's own ordering of their steps is a free choice. -/
inductive Agent where
  /-- P, the producer: the interrupt context, which issues `WRB`. -/
  | p
  /-- C, the consumer: the control loop, which issues everything else. -/
  | c
  deriving DecidableEq, Repr, Inhabited

/-- FREE VALUE (R59, R78; spec/93_implementation_defined.md U8, U13): which agent performs the next step when
both can move and the environment's list of turns says nothing. The argument is a plain counter of State. -/
opaque Config.freeTurn : Nat → Agent

/-- The test instantiation of R8 (decision D31): `START_MARKER = 0x5A`, `WD_THRESHOLD = 3`, `WD_WIDTH = 8`.
Used by tests only; it is no claim about the device. -/
def Params.test : Params := { startMarker := 0x5A, wdWidthPred := 7, wdThresholdSeed := 2 }

end Sys2Proof
end

