-- ==== Sys2Proof/Syntax.lean ====
section
/-! DEFINITION. The operations of the block (spec/00_scope.md R4, spec/opcode_table.json): one constructor of
`Instr` per row of the opcode table, over operands whose types admit no illegal value but one (the length of a
host command, checked in WellFormed.lean). -/

namespace Sys2Proof

/-- The channels 0, 1, 2 (R20). -/
inductive Channel where
  | ch0 | ch1 | ch2
  deriving DecidableEq, Repr

/-- The ten bytes of a DataFrame, byte 0 first on the wire (R70). -/
structure Frame where
  f0 : Byte
  f1 : Byte
  f2 : Byte
  f3 : Byte
  f4 : Byte
  f5 : Byte
  f6 : Byte
  f7 : Byte
  f8 : Byte
  f9 : Byte
  deriving DecidableEq, Repr

/-- The seven operations of R4. -/
inductive Instr where
  /-- `WRB c, b` (R101): byte `b` received on channel `c`. -/
  | wrb (c : Channel) (b : Byte)
  /-- `TRS c` (R105): try to read a sample of channel `c`. -/
  | trs (c : Channel)
  /-- `DEC f0, …, f9` (R134): apply the Frame Decoder to ten bytes. -/
  | dec (f : Frame)
  /-- `SET c, v` (R152): the command pattern `v` for motor channel `c`. -/
  | set (c : Channel) (v : Half)
  /-- `FSAFE` (R156): ground every leg. -/
  | fsafe
  /-- `TICK` (R172): one control-loop tick of the watchdog. -/
  | tick
  /-- `CMD n, p0, …, p(n−1)` (R175): receipt of a host command; `n` is the length of `p`. -/
  | cmd (p : List Byte)
  deriving DecidableEq, Repr

/-- Why a request is refused (R85): the checks of the decoder, in the spec's order. -/
inductive RequestRefusal where
  /-- `0xF1`: the opcode is 0x0 or 0x8..0xF. -/
  | illegalOpcode
  /-- `0xF5`: the operation is not legal on this port. -/
  | wrongPort
  /-- `0xF2`: the reserved bits are not 0. -/
  | reservedBits
  /-- `0xF3`: the channel field is not one the operation allows. -/
  | channelField
  /-- `0xF4`: the number of bytes is not the operation's. -/
  | length
  deriving DecidableEq, Repr

end Sys2Proof
end

