-- ==== Sys2Proof/WellFormed.lean ====
section
/-! DEFINITION. Well-formed instructions. Channel numbers, bytes and frames are legal by their types; the one
check left is that the length of a host command fits its length byte (spec/30_encoding.md R83: `n` is 0..255). -/

namespace Sys2Proof

/-- `i` has an encoding (R83): the payload of a `CMD` is at most 255 bytes long. -/
def Instr.wellFormed : Instr → Bool
  | .wrb _ _ => true
  | .trs _ => true
  | .dec _ => true
  | .set _ _ => true
  | .fsafe => true
  | .tick => true
  | .cmd p => decide (p.length ≤ 255)

end Sys2Proof
end

