-- ==== Sys2Proof/Decode.lean ====
section
/-! DEFINITION. The request encoding of spec/30_encoding.md R81 to R85: the decoder, total on every byte sequence
and refusing by name in the order of R85; the encoder, written from the same tables; and the two readings of a
request as one number (bit 0 the least significant bit of byte 0) that the host asks for. -/

namespace Sys2Proof

/-! ## Header fields and opcodes -/

/-- `H[7:4]` (R81). -/
def headerOp (h : Byte) : BitVec 4 := h.extractLsb' 4 4

/-- `H[3:2]` (R81). -/
def headerCh (h : Byte) : BitVec 2 := h.extractLsb' 2 2

/-- `H[1:0]` (R81). -/
def headerRsv (h : Byte) : BitVec 2 := h.extractLsb' 0 2

/-- The rows of R82. -/
inductive Opcode where
  | wrb | trs | dec | set | fsafe | tick | cmd
  deriving DecidableEq, Repr

/-- The operation code of each row (R82). -/
def Opcode.code : Opcode → BitVec 4
  | .wrb => 0x1
  | .trs => 0x2
  | .dec => 0x3
  | .set => 0x4
  | .fsafe => 0x5
  | .tick => 0x6
  | .cmd => 0x7

/-- The row of an operation code; 0x0 and 0x8 to 0xF are illegal (R82). -/
def opcodeOf (op : BitVec 4) : Option Opcode :=
  match op.toNat with
  | 1 => some .wrb
  | 2 => some .trs
  | 3 => some .dec
  | 4 => some .set
  | 5 => some .fsafe
  | 6 => some .tick
  | 7 => some .cmd
  | _ => none

/-- The port of each row (R82). -/
def Opcode.port : Opcode → Agent
  | .wrb => .p
  | .trs => .c
  | .dec => .c
  | .set => .c
  | .fsafe => .c
  | .tick => .c
  | .cmd => .c

/-- The port an operation is legal on, which is the agent that issues it (R4, R77, R82). -/
def Instr.port : Instr → Agent
  | .wrb _ _ => .p
  | .trs _ => .c
  | .dec _ => .c
  | .set _ _ => .c
  | .fsafe => .c
  | .tick => .c
  | .cmd _ => .c

/-- Whether the header's channel field is an operand (R81). -/
def Opcode.hasChannel : Opcode → Bool
  | .wrb => true
  | .trs => true
  | .dec => false
  | .set => true
  | .fsafe => false
  | .tick => false
  | .cmd => false

/-- The two bits of a channel number (R81, R83). -/
def Channel.bits : Channel → BitVec 2
  | .ch0 => 0
  | .ch1 => 1
  | .ch2 => 2

/-- The channel of a channel field; 3 is no channel (R85). -/
def channelOf (ch : BitVec 2) : Option Channel :=
  match ch.toNat with
  | 0 => some .ch0
  | 1 => some .ch1
  | 2 => some .ch2
  | _ => none

/-- Check 4 of R85: the channel an operation's header names. An operation without a channel operand must
have 0 in the field. -/
def channelFor (op : Opcode) (ch : BitVec 2) : Option Channel :=
  if op.hasChannel then channelOf ch
  else if ch = 0 then some .ch0 else none

/-! ## Operands -/

/-- Ten bytes as a frame (R70). -/
def Frame.ofList : List Byte → Option Frame
  | [f0, f1, f2, f3, f4, f5, f6, f7, f8, f9] => some ⟨f0, f1, f2, f3, f4, f5, f6, f7, f8, f9⟩
  | _ => none

/-- The ten bytes in wire order (R70). -/
def Frame.toList (f : Frame) : List Byte :=
  [f.f0, f.f1, f.f2, f.f3, f.f4, f.f5, f.f6, f.f7, f.f8, f.f9]

/-- Check 5 of R85 and the operands of R83: the bytes after the header must be exactly the operation's. A `CMD`
whose byte count is `2 + n` decodes whatever `n` is: R175 gives the operation for every `n`. -/
def decodeOperands (op : Opcode) (c : Channel) (bs : List Byte) : Except RequestRefusal Instr :=
  match op with
  | .wrb => match bs with
    | [b] => .ok (.wrb c b)
    | _ => .error .length
  | .trs => match bs with
    | [] => .ok (.trs c)
    | _ => .error .length
  | .dec => match Frame.ofList bs with
    | some f => .ok (.dec f)
    | none => .error .length
  | .set => match bs with
    | [hi, lo] => .ok (.set c (hi ++ lo))
    | _ => .error .length
  | .fsafe => match bs with
    | [] => .ok .fsafe
    | _ => .error .length
  | .tick => match bs with
    | [] => .ok .tick
    | _ => .error .length
  | .cmd => match bs with
    | n :: p => if p.length = n.toNat then .ok (.cmd p) else .error .length
    | [] => .error .length

/-! ## The decoder -/

/-- The request decoder of the port of agent `a`: the checks of R85 in its order, the first failing one deciding.
DESIGN CHOICE (notes/assumptions/6.md): a request of no bytes, which has no header, is refused for its length. -/
def decode (a : Agent) (bs : List Byte) : Except RequestRefusal Instr :=
  match bs with
  | [] => .error .length
  | h :: operands =>
    match opcodeOf (headerOp h) with
    | none => .error .illegalOpcode
    | some op =>
      if op.port ≠ a then .error .wrongPort
      else if headerRsv h ≠ 0 then .error .reservedBits
      else match channelFor op (headerCh h) with
        | none => .error .channelField
        | some c => decodeOperands op c operands

/-! ## The encoder -/

/-- The header `op ++ ch ++ 00` (R81, R83). -/
def header (op : Opcode) (ch : BitVec 2) : Byte := op.code ++ ch ++ (0 : BitVec 2)

/-- The request of an instruction, byte 0 first (R83). -/
def encode : Instr → List Byte
  | .wrb c b => [header .wrb c.bits, b]
  | .trs c => [header .trs c.bits]
  | .dec f => header .dec 0 :: f.toList
  | .set c v => [header .set c.bits, v.extractLsb' 8 8, v.extractLsb' 0 8]
  | .fsafe => [header .fsafe 0]
  | .tick => [header .tick 0]
  | .cmd p => header .cmd 0 :: BitVec.ofNat 8 p.length :: p

/-! ## A request as one number -/

/-- Byte `i` of the request whose bits are `w`, bit 0 the least significant bit of byte 0. -/
def wordByte (w i : Nat) : Byte := BitVec.ofNat 8 (w / 2 ^ (8 * i))

/-- The total length of a request, from its header and, for `CMD`, its byte 1 (R82, R84); none for an
illegal opcode. -/
def requestLength (h n : Byte) : Option Nat :=
  match opcodeOf (headerOp h) with
  | some .wrb => some 2
  | some .trs => some 1
  | some .dec => some 11
  | some .set => some 3
  | some .fsafe => some 1
  | some .tick => some 1
  | some .cmd => some (2 + n.toNat)
  | none => none

/-- The request whose `nbits` bits are `w`: as many bytes as R82 gives for its header, the bits above `nbits`
zero (notes/assumptions/7.md); for an illegal opcode, the bytes `nbits` covers. -/
def requestOfWord (nbits w : Nat) : List Byte :=
  (List.range ((requestLength (wordByte (w % 2 ^ nbits) 0) (wordByte (w % 2 ^ nbits) 1)).getD (nbits / 8))).map
    (wordByte (w % 2 ^ nbits))

/-- The port the request `bs` is presented on: the P port for a `WRB` header, else the C port (R79, R82). -/
def requestPort (bs : List Byte) : Agent :=
  match bs with
  | [] => .c
  | h :: _ =>
    match opcodeOf (headerOp h) with
    | some op => op.port
    | none => .c

/-- The instruction the decoder reads from the request whose bits are `w`. -/
def decodeTableWord (nbits w : Nat) : Option Instr :=
  match decode (requestPort (requestOfWord nbits w)) (requestOfWord nbits w) with
  | .ok i => some i
  | .error _ => none

end Sys2Proof
end

