-- ==== Sys2Proof/Machine/State.lean ====
section
/-! DEFINITION. The state of the block (spec/10_state.md R20 to R38): three Telemetry Buffers with their frame
storage, three motor channels, the watchdog counter; agent C's position inside a multi-step operation (R37); and
the environment's side of the two ports (spec/30_encoding.md R77, R78). Plain data throughout. -/

namespace Sys2Proof.Machine

/-- One value per channel (R20). -/
structure PerChannel (α : Type) where
  ch0 : α
  ch1 : α
  ch2 : α
  deriving DecidableEq, Repr

/-- The four values of `TB[c].state` (R22). -/
inductive BufState where
  /-- no frame in progress, none waiting -/
  | idle
  /-- a frame is being assembled; `cursor` bytes of it are stored -/
  | writing
  /-- a complete frame is in storage, not yet taken -/
  | doneWriting
  /-- the consumer has taken the frame and is decoding it -/
  | reading
  deriving DecidableEq, Repr

/-- A Telemetry Buffer without its storage (R22, R23): its state and its 4-bit cursor. -/
structure TelemetryBuffer where
  state : BufState
  cursor : BitVec 4
  deriving DecidableEq, Repr

/-- Frame storage (R24, R50): the cells that hold a byte, by address, in rising order. The address of `c:i` is
`10·c + i` (Ops.lean); an address that is not listed holds no value (R38). -/
abbrev Memory := List Host.Cell

/-- A leg value (R26). -/
inductive Leg where
  /-- in the type, but written by no operation (R159) -/
  | off
  /-- the output node is connected to ground -/
  | ground
  /-- PWM-driven with a 16-bit duty number -/
  | pwm (duty : Half)
  deriving DecidableEq, Repr

/-- `MC[c]`: the two legs of a motor channel (R27). -/
structure MotorChannel where
  a : Leg
  b : Leg
  deriving DecidableEq, Repr

/-- The two legs of a channel, as the operand of a `LegWrite` (R151). -/
inductive LegSide where
  | a | b
  deriving DecidableEq, Repr

/-- The atomic step `LegWrite(c, L, v)` (R151). -/
structure LegWrite where
  ch : Channel
  side : LegSide
  value : Leg
  deriving DecidableEq, Repr

/-- Agent C's position inside a multi-step operation (R37, R58): what the operation has still to do. -/
inductive Work where
  /-- the release step of a `TRS c` (R107) -/
  | release (c : Channel)
  /-- the leg write `w`, then `rest`, then, for a `CMD`, the counter clear (R152, R156, R172, R175) -/
  | legs (w : LegWrite) (rest : List LegWrite) (clears : Bool)
  /-- the counter clear that ends a `CMD` (R175) -/
  | clearCount
  deriving DecidableEq, Repr

/-- A decoded telemetry sample (R72): the three signed fields as integers. -/
structure Sample where
  speed : Int
  angle : Int
  position : Int
  deriving DecidableEq, Repr

/-- The error kinds (spec/60_exceptions.md R191). -/
inductive ErrorKind where
  | framing
  | overrun
  | checksum
  | reentrant
  /-- the environment's own error kind; the block never raises it (R125, R191) -/
  | handshakeTimeout
  deriving DecidableEq, Repr

/-- The response to a request (R86). -/
inductive Response where
  | ok
  | noSample
  | sample (s : Sample)
  | error (e : ErrorKind)
  | refused (r : RequestRefusal)
  deriving DecidableEq, Repr

/-- A request as presented on a port: a byte sequence, byte 0 first (R81). -/
abbrev Request := List Byte

/-- What the environment lets happen next: a step of one agent, or the reset input (R59, R77, R220). -/
inductive Turn where
  /-- agent P performs its next step, if it has presented a request -/
  | p
  /-- agent C performs its next step, if it has one -/
  | c
  /-- `rst` is asserted; `dropP` and `dropC` say whether a request is presented on that port meanwhile -/
  | rst (dropP dropC : Bool)
  deriving DecidableEq, Repr

/-- The machine. The first four fields are the whole state of the block (R21); `cWork` is agent C's (R37); the
others are the environment's side of the ports, plain data that the step reads (R59, R77, R78). -/
structure State where
  /-- `TB[c].state` and `TB[c].cursor` -/
  tb : PerChannel TelemetryBuffer
  /-- `TB[c].F` of all three channels -/
  mem : Memory
  /-- `MC[c]` -/
  mc : PerChannel MotorChannel
  /-- `WD.count`, in 0..`WD_MAX` -/
  wd : Nat
  /-- operations of agent C in progress, the innermost first: at most one through the port (R78, R109) -/
  cWork : List Work
  /-- requests agent P presents, the next one first -/
  pIn : List Request
  /-- requests agent C presents, the next one first -/
  cIn : List Request
  /-- responses given on the P response port, the earliest first -/
  pOut : List Response
  /-- responses given on the C response port, the earliest first -/
  cOut : List Response
  /-- the environment's choice of the next steps -/
  turns : List Turn
  /-- how many free choices of Config have been used -/
  freeTurns : Nat
  deriving DecidableEq, Repr

/-- Why the machine stops. Each marks a state in which the spec gives no behaviour and which no run from reset
reaches (R198); stopping there is SAFE. -/
inductive Fault where
  /-- `BadCursor`, raised by `WRB` in state `Writing` with the cursor in 10..15 (R104; U1). Safe. -/
  | badCursor
  /-- `BadRelease`, raised by the release step of `TRS` when the buffer is not `Reading` (R107; U2). Safe. -/
  | badRelease
  /-- raised by the release step of `TRS` when a byte of the frame storage has never been written since reset:
  it holds no value (R38; U7). Safe. -/
  | readBeforeWrite
  deriving DecidableEq, Repr

/-- Why an instruction has no meaning in the model. -/
inductive Refusal where
  /-- raised by an arm of `exec` whose instruction is not modelled yet; no arm does. Safe. -/
  | notModelled (mnemonic : String)
  deriving DecidableEq, Repr

/-- The state right after reset (R38, R220): buffers `Idle` with cursor 0, no byte of storage holding a value,
every leg `Ground`, the watchdog at 0; no operation in progress and nothing presented yet. -/
def State.reset : State where
  tb := ⟨⟨.idle, 0⟩, ⟨.idle, 0⟩, ⟨.idle, 0⟩⟩
  mem := []
  mc := ⟨⟨.ground, .ground⟩, ⟨.ground, .ground⟩, ⟨.ground, .ground⟩⟩
  wd := 0
  cWork := []
  pIn := []
  cIn := []
  pOut := []
  cOut := []
  turns := []
  freeTurns := 0

end Sys2Proof.Machine
end

