-- ==== Sys2Proof/Machine/Operands.lean ====
section
/-! DEFINITION. How bit patterns are read and built (spec/00_scope.md R10, spec/20_memory.md R51, R52,
spec/30_encoding.md R73, R74, R80, R86, R87): two's complement, big-endian assembly, and the output encodings of
buffer states, legs and responses. -/

namespace Sys2Proof.Machine

/-- `sint_N(v)`: the signed integer a pattern denotes in two's complement (R10). -/
def sint {n : Nat} (v : BitVec n) : Int := v.toInt

/-- `uint_N(k)`: the pattern of `k` modulo `2^N` (R10). -/
def uint (n : Nat) (k : Int) : BitVec n := BitVec.ofInt n k

/-- The big-endian value of a byte sequence, its first byte the most significant (R12, R51). -/
def bigEndian (bs : List Byte) : Nat := bs.foldl (fun acc b => acc * 256 + b.toNat) 0

/-- `a ++ b` of two bytes: a big-endian 16-bit pattern (R10, R51). -/
def half (hi lo : Byte) : Half := hi ++ lo

/-- `a ++ b ++ c ++ d`: a big-endian 32-bit pattern (R10, R51). -/
def word (b3 b2 b1 b0 : Byte) : Word := half b3 b2 ++ half b1 b0

/-- The two bytes of a 16-bit pattern, most significant first (R73). -/
def halfBytes (v : Half) : List Byte := [v.extractLsb' 8 8, v.extractLsb' 0 8]

/-- The four bytes of a 32-bit pattern, most significant first (R73). -/
def wordBytes (v : Word) : List Byte :=
  [v.extractLsb' 24 8, v.extractLsb' 16 8, v.extractLsb' 8 8, v.extractLsb' 0 8]

/-- The number of a channel (R20). -/
def channelIndex : Channel → Nat
  | .ch0 => 0
  | .ch1 => 1
  | .ch2 => 2

/-- The 2-bit encoding of a buffer state (R22, decision D7); not visible at the ports. -/
def BufState.bits : BufState → BitVec 2
  | .idle => 0
  | .writing => 1
  | .doneWriting => 2
  | .reading => 3

/-- The 18-bit leg output `mode ++ duty` (R80). -/
def Leg.output : Leg → BitVec 18
  | .off => (0 : BitVec 2) ++ (0 : Half)
  | .ground => (1 : BitVec 2) ++ (0 : Half)
  | .pwm d => (2 : BitVec 2) ++ d

/-- The code of an error kind (R191, decision D25). -/
def ErrorKind.code : ErrorKind → BitVec 4
  | .framing => 1
  | .overrun => 2
  | .checksum => 3
  | .reentrant => 4
  | .handshakeTimeout => 5

/-- The code of a refusal (R85, R86). -/
def refusalCode : RequestRefusal → BitVec 4
  | .illegalOpcode => 1
  | .reservedBits => 2
  | .channelField => 3
  | .length => 4
  | .wrongPort => 5

/-- The seven bytes of a Sample, in the layout of frame bytes 1..7 (R87). -/
def Sample.bytes (s : Sample) : List Byte :=
  uint 8 s.speed :: (wordBytes (uint 32 s.angle) ++ halfBytes (uint 16 s.position))

/-- The bytes of a response on its port (R86). -/
def Response.bytes : Response → List Byte
  | .ok => [0x00]
  | .noSample => [0x10]
  | .sample s => 0x20 :: s.bytes
  | .error e => [(0xE : BitVec 4) ++ e.code]
  | .refused r => [(0xF : BitVec 4) ++ refusalCode r]

end Sys2Proof.Machine
end

