-- ==== Sys2Proof/Machine/Ops.lean ====
section
/-! DEFINITION. The operations every meaning is written in (spec/00_scope.md R12): reading and writing the fields
of State, frame storage (spec/20_memory.md R50 to R54), compare-and-swap (R62), the leg write (R151), and ending
an operation with a response or an error (spec/60_exceptions.md R190, R196). -/

namespace Sys2Proof.Machine

/-! ## Channels -/

/-- The value of a channel. -/
def PerChannel.get {α : Type} (x : PerChannel α) : Channel → α
  | .ch0 => x.ch0
  | .ch1 => x.ch1
  | .ch2 => x.ch2

/-- Replace the value of one channel. -/
def PerChannel.put {α : Type} (x : PerChannel α) (c : Channel) (v : α) : PerChannel α :=
  match c with
  | .ch0 => { x with ch0 := v }
  | .ch1 => { x with ch1 := v }
  | .ch2 => { x with ch2 := v }

/-- `TB[c]` without its storage (R11). -/
def State.buf (s : State) (c : Channel) : TelemetryBuffer := s.tb.get c

/-- `TB[c].state <- v`. -/
def setState (c : Channel) (v : BufState) (s : State) : State :=
  { s with tb := s.tb.put c { s.buf c with state := v } }

/-- `TB[c].cursor <- v`. -/
def setCursor (c : Channel) (v : BitVec 4) (s : State) : State :=
  { s with tb := s.tb.put c { s.buf c with cursor := v } }

/-- `MC[c]` (R11). -/
def State.motor (s : State) (c : Channel) : MotorChannel := s.mc.get c

/-- `WD.count <- n`. -/
def setCount (n : Nat) (s : State) : State := { s with wd := n }

/-! ## Frame storage -/

/-- The address of `c:i` (R50): ten bytes a channel. DESIGN CHOICE (notes/assumptions/3.md). -/
def frameAddr (c : Channel) (i : Nat) : Nat := 10 * channelIndex c + i

/-- The number of bytes of frame storage (R50). -/
def memSize : Nat := 30

/-- What an address that is not listed reads as: no value (R38, U7). -/
def unlisted : Option Byte := none

/-- The byte at an address. -/
def Memory.read (m : Memory) (a : Nat) : Option Byte :=
  match m with
  | [] => unlisted
  | (k, v) :: rest => if k = a then some v else Memory.read rest a

/-- Store a byte at an address, in the place that keeps the addresses rising. -/
def Memory.write (m : Memory) (a : Nat) (b : Byte) : Memory :=
  match m with
  | [] => [(a, b)]
  | (k, v) :: rest =>
    if a < k then (a, b) :: (k, v) :: rest
    else if a = k then (a, b) :: rest
    else (k, v) :: Memory.write rest a b

/-- Every listed address is at least `lo`, below the end of the storage, and the addresses rise strictly. -/
def Memory.wfFrom (lo : Nat) : Memory → Bool
  | [] => true
  | (k, _) :: rest => decide (lo ≤ k) && decide (k < memSize) && Memory.wfFrom (k + 1) rest

/-- The canonical form: addresses strictly rising, all of them addresses of the storage (R50). An unlisted
address holds no value, so no entry can equal what an unlisted address reads as. -/
def Memory.wf (m : Memory) : Bool := Memory.wfFrom 0 m

/-- The `n` bytes from address `a` on, or none if one of them holds no value. -/
def Memory.readBytes (m : Memory) (a : Nat) : Nat → Option (List Byte)
  | 0 => some []
  | n + 1 =>
    match Memory.read m a, Memory.readBytes m (a + 1) n with
    | some b, some bs => some (b :: bs)
    | _, _ => none

/-- `MemRead(c:i, n)` (R12, R52): defined only inside the ten bytes of a channel, and only where every byte
holds a value. -/
def memRead (s : State) (c : Channel) (i n : Nat) : Option Nat :=
  if i + n ≤ 10 then (Memory.readBytes s.mem (frameAddr c i) n).map bigEndian else none

/-- `MemWrite(c:i, 1, v)` (R12, R54); the index is in 0..9 by its type. -/
def memWrite (c : Channel) (i : Fin 10) (v : Byte) (s : State) : State :=
  { s with mem := Memory.write s.mem (frameAddr c i.val) v }

/-- `TB[c].F[0..9]`, the ten-byte read of the release step (R54), or none if a byte holds no value. -/
def readFrame (s : State) (c : Channel) : Option Frame :=
  (Memory.readBytes s.mem (frameAddr c 0) 10).bind Frame.ofList

/-! ## Compare-and-swap -/

/-- `CAS(TB[c].state, old, new)` (R12, R62): the state after it, and whether it succeeded. -/
def casState (c : Channel) (old new : BufState) (s : State) : State × Bool :=
  if (s.buf c).state = old then (setState c new s, true) else (s, false)

/-! ## Ending an operation -/

/-- `respond v` on the response port of agent `a` (R12, R77). -/
def respond (a : Agent) (r : Response) (s : State) : State :=
  match a with
  | .p => { s with pOut := s.pOut ++ [r] }
  | .c => { s with cOut := s.cOut ++ [r] }

/-- `raise E`, the one way an operation ends in an error (R12, R190, R196): the error is the operation's response,
every state change written before it is kept, nothing is saved and no control is transferred. The block has no
return from it (R197). -/
def raise (a : Agent) (e : ErrorKind) (s : State) : State := respond a (.error e) s

/-- Agent C goes on inside the operation with the work `w` (R37). -/
def pushWork (w : Work) (s : State) : State := { s with cWork := w :: s.cWork }

/-! ## Legs -/

/-- One leg of a motor channel. -/
def MotorChannel.leg (m : MotorChannel) : LegSide → Leg
  | .a => m.a
  | .b => m.b

/-- Replace one leg of a motor channel. -/
def MotorChannel.putLeg (m : MotorChannel) (side : LegSide) (v : Leg) : MotorChannel :=
  match side with
  | .a => { m with a := v }
  | .b => { m with b := v }

/-- The motor channels after a leg write (R151). -/
def applyWrite (w : LegWrite) (mc : PerChannel MotorChannel) : PerChannel MotorChannel :=
  mc.put w.ch ((mc.get w.ch).putLeg w.side w.value)

/-- `LegWrite(c, L, v)` (R12, R151): one atomic step. -/
def legWrite (w : LegWrite) (s : State) : State := { s with mc := applyWrite w s.mc }

/-- After a step of an operation that writes legs: the next leg write, else the counter clear of a `CMD`, else
the response `Ok` (R89: after the last step). -/
def afterWrites (rest : List LegWrite) (clears : Bool) (s : State) : State :=
  match rest with
  | w :: ws => pushWork (.legs w ws clears) s
  | [] => if clears then pushWork .clearCount s else respond .c .ok s

/-- Perform the leg write `w` as one step, `rest` and the counter clear being still to do. -/
def performWrite (w : LegWrite) (rest : List LegWrite) (clears : Bool) (s : State) : State :=
  afterWrites rest clears (legWrite w s)

/-- Begin an operation that writes legs: the first write is its first step. -/
def startWrites (ws : List LegWrite) (clears : Bool) (s : State) : State :=
  match ws with
  | [] => afterWrites [] clears s
  | w :: rest => performWrite w rest clears s

/-! ## Outputs -/

/-- The six leg outputs, in the order of R80. -/
def State.legOutputs (s : State) : List (BitVec 18) :=
  [s.mc.ch0.a.output, s.mc.ch0.b.output, s.mc.ch1.a.output, s.mc.ch1.b.output, s.mc.ch2.a.output, s.mc.ch2.b.output]

/-- The bytes given on the P response port so far (R77, R86). -/
def State.pPort (s : State) : List (List Byte) := s.pOut.map Response.bytes

/-- The bytes given on the C response port so far (R77, R86). -/
def State.cPort (s : State) : List (List Byte) := s.cOut.map Response.bytes

end Sys2Proof.Machine
end

