-- ==== Sys2Proof/Machine/Flags.lean ====
section
/-! DEFINITION. The block stores no flag (spec/10_state.md R30): its one derived condition `timed_out`, the
watchdog's parameters as R8 names them, and the saturating increment (spec/45_watchdog_command.md R173). -/

namespace Sys2Proof

/-- `WD_WIDTH`, the width in bits of the watchdog counter (R8, R29). -/
def Params.wdWidth (p : Params) : Nat := p.wdWidthPred + 1

/-- `WD_MAX = 2^WD_WIDTH − 1` (R8, R29). -/
def Params.wdMax (p : Params) : Nat := 2 ^ p.wdWidth - 1

/-- `WD_THRESHOLD`, in 1..`WD_MAX` (R8). -/
def Params.wdThreshold (p : Params) : Nat := p.wdThresholdSeed % p.wdMax + 1

namespace Machine

/-- `inc_sat` as `TICK` performs it (R172, R173): no wrap, and no change at or above `WD_MAX`. -/
def incSat (p : Params) (n : Nat) : Nat := if n < p.wdMax then n + 1 else n

/-- `timed_out := (WD.count ≥ WD_THRESHOLD)` (R30). -/
def timedOut (p : Params) (s : State) : Bool := decide (p.wdThreshold ≤ s.wd)

end Machine

end Sys2Proof
end

