-- ==== Sys2Proof/Machine/FrameDecoder.lean ====
section
/-! DEFINITION. The Frame Decoder (spec/43_frame_decoder.md R130 to R136): Checksum8, field extraction, the
decoder, the encoder that the round trip needs, and the operation `DEC`. -/

namespace Sys2Proof.Machine

/-- `Checksum8(f[0..8])`: the complement of the exclusive-or of the nine bytes before the checksum byte (R131). -/
def checksum8 (f : Frame) : Byte :=
  ~~~(f.f0 ^^^ f.f1 ^^^ f.f2 ^^^ f.f3 ^^^ f.f4 ^^^ f.f5 ^^^ f.f6 ^^^ f.f7 ^^^ f.f8)

/-- `DecodeFields(f[0..9])` (R73, R132). -/
def decodeFields (f : Frame) : Sample where
  speed := sint f.f1
  angle := sint (word f.f2 f.f3 f.f4 f.f5)
  position := sint (half f.f6 f.f7)

/-- `DecodeFrame(f[0..9])` (R133): `Valid` is `some`, `Invalid` is `none`. The checksum is the only test. -/
def decodeFrame (f : Frame) : Option Sample :=
  if f.f9 = checksum8 f then some (decodeFields f) else none

/-- The frame of a Sample with its checksum byte still 0 (R136). -/
def encodeBody (p : Params) (s : Sample) : Frame where
  f0 := p.startMarker
  f1 := uint 8 s.speed
  f2 := (uint 32 s.angle).extractLsb' 24 8
  f3 := (uint 32 s.angle).extractLsb' 16 8
  f4 := (uint 32 s.angle).extractLsb' 8 8
  f5 := (uint 32 s.angle).extractLsb' 0 8
  f6 := (uint 16 s.position).extractLsb' 8 8
  f7 := (uint 16 s.position).extractLsb' 0 8
  f8 := 0
  f9 := 0

/-- `EncodeFrame(speed, angle, position)` (R136). -/
def encodeFrame (p : Params) (s : Sample) : Frame :=
  { encodeBody p s with f9 := checksum8 (encodeBody p s) }

/-- The response that carries a decoder result (R75, R107, R134). -/
def decodeResponse (f : Frame) (s : State) : State :=
  match decodeFrame f with
  | some smp => respond .c (.sample smp) s
  | none => raise .c .checksum s

/-- `DEC f0, …, f9` (R134): one step that reads no state and writes none. -/
def execDec (f : Frame) (s : State) : Host.Outcome State Fault Refusal :=
  .next (decodeResponse f s)

end Sys2Proof.Machine
end

