-- ==== Sys2Proof/Machine/TelemetryBuffer.lean ====
section
/-! DEFINITION. The Telemetry Buffer operations (spec/41_telemetry_buffer.md R100 to R109): `WRB`, one step of
agent P, and `TRS`, an acquire step and, if it took the frame, a release step of agent C. -/

namespace Sys2Proof.Machine

/-- The index a received byte would take (R101): 0 from `Idle`, else the cursor. -/
def wrbIndex (t : TelemetryBuffer) : BitVec 4 := if t.state = .idle then 0 else t.cursor

/-- After a byte is stored at index `i` (R101): the tenth byte completes the frame, any other moves the cursor. -/
def advance (c : Channel) (i : Fin 10) (s : State) : State :=
  if i.val = 9 then setState c .doneWriting (setCursor c 0 s)
  else setCursor c (BitVec.ofNat 4 (i.val + 1)) s

/-- The accepting case of R101: `Idle` becomes `Writing` by a compare-and-swap that cannot fail inside the step,
the byte is stored at index `i`, and the cursor moves. -/
def storeByte (c : Channel) (i : Fin 10) (b : Byte) (s : State) : State :=
  advance c i (memWrite c i b (casState c .idle .writing s).1)

/-- A byte that arrives in `Idle` or `Writing` for index `i` (R101, R102): the byte at index 0 must be the start
marker. -/
def acceptByte (p : Params) (c : Channel) (i : Fin 10) (b : Byte) (s : State) : State :=
  if i.val = 0 ∧ b ≠ p.startMarker then raise .p .framing (setCursor c 0 s)
  else respond .p .ok (storeByte c i b s)

/-- `WRB c, b` (R101 to R104) for given parameters. The state test comes first (R195). An index above 9 is the
model fault `BadCursor`; such an index is not 0, so the order of that test and the marker test does not matter. -/
def wrbStep (p : Params) (c : Channel) (b : Byte) (s : State) : Host.Outcome State Fault Refusal :=
  if (s.buf c).state = .doneWriting ∨ (s.buf c).state = .reading then
    .next (raise .p .overrun (setCursor c 0 s))
  else if h : (wrbIndex (s.buf c)).toNat < 10 then
    .next (acceptByte p c ⟨(wrbIndex (s.buf c)).toNat, h⟩ b s)
  else .fault .badCursor

/-- `WRB c, b` (R101). -/
def execWrb (c : Channel) (b : Byte) (s : State) : Host.Outcome State Fault Refusal :=
  wrbStep Config.params c b s

/-- The acquire step of `TRS c` (R106): one observation of the state; the compare-and-swap succeeds exactly on
`DoneWriting`, and the two tests after a failed one see the same state. -/
def acquire (c : Channel) (s : State) : State :=
  match (s.buf c).state with
  | .doneWriting => pushWork (.release c) (casState c .doneWriting .reading s).1
  | .idle => respond .c .noSample s
  | .writing => respond .c .noSample s
  | .reading => raise .c .reentrant (setState c .idle s)

/-- `TRS c` (R105): its first step is the acquire step. -/
def execTrs (c : Channel) (s : State) : Host.Outcome State Fault Refusal :=
  .next (acquire c s)

/-- The release step of `TRS c` (R107): the ten-byte read, the decoder and the publication of `Idle` are one
step, and `Idle` is published in both outcomes. -/
def release (c : Channel) (s : State) : Host.Outcome State Fault Refusal :=
  if (s.buf c).state = .reading then
    match readFrame s c with
    | some f => .next (decodeResponse f (setState c .idle s))
    | none => .fault .readBeforeWrite
  else .fault .badRelease

end Sys2Proof.Machine
end

