-- ==== Sys2Proof/Machine/MotorActuator.lean ====
section
/-! DEFINITION. The Motor Actuator (spec/44_motor_actuator.md R150 to R161): the duty of a command, the leg writes
of `SET` in the order of the shoot-through lockout, and `FSAFE`. -/

namespace Sys2Proof.Machine

/-- `Duty(command)` (R153): the absolute value as a 16-bit pattern; `Duty(−32768) = 32768`. -/
def duty (command : Int) : Half := BitVec.ofNat 16 command.natAbs

/-- The two leg writes of `SET c, v`, in order (R152): the losing leg is grounded in an earlier step than the
gaining leg is driven (R155). -/
def setWrites (c : Channel) (v : Half) : List LegWrite :=
  if sint v = 0 then [⟨c, .a, .ground⟩, ⟨c, .b, .ground⟩]
  else if 0 < sint v then [⟨c, .b, .ground⟩, ⟨c, .a, .pwm (duty (sint v))⟩]
  else [⟨c, .a, .ground⟩, ⟨c, .b, .pwm (duty (sint v))⟩]

/-- The six leg writes of `FSAFE`, in order (R156). -/
def failSafeWrites : List LegWrite :=
  [⟨.ch0, .a, .ground⟩, ⟨.ch0, .b, .ground⟩, ⟨.ch1, .a, .ground⟩, ⟨.ch1, .b, .ground⟩,
   ⟨.ch2, .a, .ground⟩, ⟨.ch2, .b, .ground⟩]

/-- `SET c, v` (R152): its first step is the first of its two leg writes. -/
def execSet (c : Channel) (v : Half) (s : State) : Host.Outcome State Fault Refusal :=
  .next (startWrites (setWrites c v) false s)

/-- `FSAFE` (R156): its first step is the first of its six leg writes. -/
def execFsafe (s : State) : Host.Outcome State Fault Refusal :=
  .next (startWrites failSafeWrites false s)

end Sys2Proof.Machine
end

