-- ==== Sys2Proof/Machine/Watchdog.lean ====
section
/-! DEFINITION. The watchdog and the host command (spec/45_watchdog_command.md R170 to R176): `TICK`, `CMD` and
the counter clear that ends an accepted `CMD`. -/

namespace Sys2Proof.Machine

/-- `TICK` (R172) for given parameters: the count step, the comparison after the increment; the six leg writes of
`FSAFE` follow when timed out, else the response. -/
def tickStep (p : Params) (s : State) : State :=
  afterWrites (if timedOut p (setCount (incSat p s.wd) s) then failSafeWrites else []) false
    (setCount (incSat p s.wd) s)

/-- `TICK` (R172). -/
def execTick (s : State) : Host.Outcome State Fault Refusal :=
  .next (tickStep Config.params s)

/-- The leg writes of an accepted host command (R74, R175): `SET 0`, `SET 1`, `SET 2`. -/
def commandWrites (v0 v1 v2 : Half) : List LegWrite :=
  setWrites .ch0 v0 ++ setWrites .ch1 v1 ++ setWrites .ch2 v2

/-- `CMD n, p0, …, p(n−1)` (R175): six bytes are three big-endian values; any other length is dropped whole. -/
def execCmd (p : List Byte) (s : State) : Host.Outcome State Fault Refusal :=
  match p with
  | [p0, p1, p2, p3, p4, p5] => .next (startWrites (commandWrites (half p0 p1) (half p2 p3) (half p4 p5)) true s)
  | _ => .next (respond .c (.refused .length) s)

/-- The last step of an accepted `CMD` (R175): the counter clear, and the response. -/
def clearStep (s : State) : State := respond .c .ok (setCount 0 s)

/-- Agent C's next step inside an operation whose remaining work is `w` (R58). -/
def continueWork (w : Work) (s : State) : Host.Outcome State Fault Refusal :=
  match w with
  | .release c => release c s
  | .legs lw rest clears => .next (performWrite lw rest clears s)
  | .clearCount => .next (clearStep s)

end Sys2Proof.Machine
end

