-- ==== Sys2Proof/Machine/Dispatch.lean ====
section
/-! DEFINITION. The meaning of each operation as the first atomic step of it (spec/20_memory.md R58): one arm per
row of spec/opcode_table.json. The later steps of a multi-step operation are the work it leaves in State. -/

namespace Sys2Proof.Machine

def exec (i : Instr) (s : State) : Host.Outcome State Fault Refusal :=
  match i with
  | .wrb c b => Sys2Proof.Machine.execWrb c b s
  | .trs c => Sys2Proof.Machine.execTrs c s
  | .dec f => Sys2Proof.Machine.execDec f s
  | .set c v => Sys2Proof.Machine.execSet c v s
  | .fsafe => Sys2Proof.Machine.execFsafe s
  | .tick => Sys2Proof.Machine.execTick s
  | .cmd p => Sys2Proof.Machine.execCmd p s

end Sys2Proof.Machine
end

