-- ==== Sys2Proof/Machine/Ports.lean ====
section
/-! DEFINITION. The two ports and the agents' turns (spec/30_encoding.md R77 to R79, R85, R89, R90,
spec/20_memory.md R59, spec/70_reset_and_hazards.md R220): serving a request, a step of each agent, the reset
input, and who moves when the environment's list of turns is empty. -/

namespace Sys2Proof.Machine

/-- Serve the request `bs` on the port of agent `a` (R85, R90): its first step, or its refusal, which changes
nothing but the response port. -/
def serve (a : Agent) (bs : Request) (s : State) : Host.Outcome State Fault Refusal :=
  match decode a bs with
  | .ok i => exec i s
  | .error r => .next (respond a (.refused r) s)

/-- A step of agent P: it serves the next request of its port, if there is one. -/
def pStep (s : State) : Host.Outcome State Fault Refusal :=
  match s.pIn with
  | [] => .next s
  | bs :: rest => serve .p bs { s with pIn := rest }

/-- A step of agent C: the next step of the operation in progress, if there is one, else the next request of its
port, if there is one (R59, R78: the port takes no request before it has responded to the present one). -/
def cStep (s : State) : Host.Outcome State Fault Refusal :=
  match s.cWork with
  | w :: ws => continueWork w { s with cWork := ws }
  | [] =>
    match s.cIn with
    | [] => .next s
    | bs :: rest => serve .c bs { s with cIn := rest }

/-- The requests left on a port on which a request is, or is not, presented during reset (R220). -/
def dropPresented (presented : Bool) (reqs : List Request) : List Request :=
  if presented then reqs.tail else reqs

/-- The reset input (R77, R220): the state of R38; the operation in progress and the requests presented meanwhile
are not performed and get no response. What the environment has seen and will do stays. -/
def resetStep (dropP dropC : Bool) (s : State) : State :=
  { State.reset with
    pIn := dropPresented dropP s.pIn
    cIn := dropPresented dropC s.cIn
    pOut := s.pOut
    cOut := s.cOut
    turns := s.turns
    freeTurns := s.freeTurns }

/-- Agent P has a step to perform. -/
def State.pReady (s : State) : Bool := !s.pIn.isEmpty

/-- Agent C has a step to perform. -/
def State.cReady (s : State) : Bool := !s.cWork.isEmpty || !s.cIn.isEmpty

/-- The environment's list of turns is empty: the agent that can move moves; when both can, a free choice (R59,
R78); when neither can, the block waits for a request and nothing changes (R224, R234). -/
def freeStep (s : State) : Host.Outcome State Fault Refusal :=
  match s.pReady, s.cReady with
  | true, true =>
    match Config.freeTurn s.freeTurns with
    | .p => pStep { s with freeTurns := s.freeTurns + 1 }
    | .c => cStep { s with freeTurns := s.freeTurns + 1 }
  | true, false => pStep s
  | false, true => cStep s
  | false, false => .next s

/-- One turn the environment has chosen. -/
def takeTurn (t : Turn) (s : State) : Host.Outcome State Fault Refusal :=
  match t with
  | .p => pStep s
  | .c => cStep s
  | .rst dropP dropC => .next (resetStep dropP dropC s)

/-- Place `bs` as the request that the very next step serves: at the front of the port it belongs to, with that
agent's turn next and, for agent C, no operation in progress. -/
def placeRequest (bs : Request) (s : State) : State :=
  match requestPort bs with
  | .p => { s with pIn := bs :: s.pIn, turns := .p :: s.turns }
  | .c => { s with cIn := bs :: s.cIn, cWork := [], turns := .c :: s.turns }

end Sys2Proof.Machine
end

