-- ==== Sys2Proof/Machine/Step.lean ====
section
/-! DEFINITION. One atomic step of the trace (spec/20_memory.md R58, R59) as a function of State, and the placing of
a request where the next step takes it. -/

namespace Sys2Proof.Machine

/-- One step of the trace (R59): the turn the environment has chosen, else whoever can move. -/
def step (s : State) : Host.Outcome State Fault Refusal :=
  match s.turns with
  | t :: rest => takeTurn t { s with turns := rest }
  | [] => freeStep s

/-- `s` with the request whose bits are `w` placed so that the next step serves it. -/
def State.withFetchWord (s : State) (nbits w : Nat) : State := placeRequest (requestOfWord nbits w) s

end Sys2Proof.Machine
end

