-- ==== Sys2Proof/Machine/Pseudo.lean ====
section
/-! DEFINITION. The listing syntax and the pseudo-operations of spec/30_encoding.md R91, R92: each is an
abbreviation for a sequence of operations. -/

namespace Sys2Proof.Machine

/-- `P: FRAME c, b0, …, b9`. -/
def pseudoFrame (c : Channel) (f : Frame) : List Instr := f.toList.map (Instr.wrb c)

/-- `P: SAMPLE c, speed, angle, position`. -/
def pseudoSample (p : Params) (c : Channel) (s : Sample) : List Instr := pseudoFrame c (encodeFrame p s)

/-- `C: CMD3 v0, v1, v2`, each value taken as `uint_16`. -/
def pseudoCmd3 (v0 v1 v2 : Int) : Instr :=
  .cmd (halfBytes (uint 16 v0) ++ halfBytes (uint 16 v1) ++ halfBytes (uint 16 v2))

/-- `C: TICKS k`. -/
def pseudoTicks (k : Nat) : List Instr := List.replicate k .tick

/-- `C: POLL`. -/
def pseudoPoll : List Instr := [.trs .ch0, .trs .ch1, .trs .ch2]

/-- The bytes of a list of operands, `, ` between them (R91). -/
def listBytes : List Byte → String
  | [] => ""
  | [b] => toString b.toNat
  | b :: rest => toString b.toNat ++ ", " ++ listBytes rest

/-- One line of a listing (R91), numbers in decimal. -/
def listing : Instr → String
  | .wrb c b => "P: WRB " ++ toString (channelIndex c) ++ ", " ++ toString b.toNat
  | .trs c => "C: TRS " ++ toString (channelIndex c)
  | .dec f => "C: DEC " ++ listBytes f.toList
  | .set c v => "C: SET " ++ toString (channelIndex c) ++ ", " ++ toString (sint v)
  | .fsafe => "C: FSAFE"
  | .tick => "C: TICK"
  | .cmd p => if p.isEmpty then "C: CMD 0" else "C: CMD " ++ toString p.length ++ ", " ++ listBytes p

/-- A leg value in a listing (R91, R26). -/
def legListing : Leg → String
  | .off => "Off"
  | .ground => "Ground"
  | .pwm d => "Pwm(" ++ toString d.toNat ++ ")"

/-- The acquire step of a `TRS` on its own line (R91). -/
def acquireListing (c : Channel) : String := "C: TRS " ++ toString (channelIndex c) ++ " .acq"

/-- The next step of an operation in progress on its own line (R91); the counter clear is written as the spec's
programs write it. -/
def stepListing : Work → String
  | .release c => "C: TRS " ++ toString (channelIndex c) ++ " .rel"
  | .legs w _ _ => "C: .leg " ++ toString (channelIndex w.ch) ++ "." ++ (match w.side with | .a => "A" | .b => "B") ++
      " <- " ++ legListing w.value
  | .clearCount => "C: WD.count <- 0"

end Sys2Proof.Machine
end

