-- ==== Sys2Proof/Safety.lean ====
section
/-! DEFINITION. What counts as a safe state and a safe run of the block, in the terms the claims use: the legs'
shapes (spec/10_state.md R28, spec/44_motor_actuator.md R157, R158), the buffers' invariant (R25), the watchdog's
range (R29), agent C's position (R37, R109), and runs of several operations or steps of one agent. -/

namespace Sys2Proof.Machine

/-! ## Runs -/

/-- Go on with `f` if the outcome is a next state. -/
def andThen (o : Host.Outcome State Fault Refusal) (f : State → Host.Outcome State Fault Refusal) :
    Host.Outcome State Fault Refusal :=
  match o with
  | .next s => f s
  | .fault r => .fault r
  | .refused r => .refused r

/-- `n` steps of agent C, no step of agent P between them. -/
def cRun : Nat → State → Host.Outcome State Fault Refusal
  | 0, s => .next s
  | n + 1, s => andThen (cStep s) (cRun n)

/-- Agent P writes the bytes `bs` to channel `c`, one `WRB` each. -/
def feed (c : Channel) : List Byte → State → Host.Outcome State Fault Refusal
  | [], s => .next s
  | b :: bs, s => andThen (exec (.wrb c b) s) (feed c bs)

/-- Agent P writes bytes to any channels, one `WRB` each. -/
def feedAll : List (Channel × Byte) → State → Host.Outcome State Fault Refusal
  | [], s => .next s
  | (c, b) :: rest, s => andThen (exec (.wrb c b) s) (feedAll rest)

/-- A whole operation of agent C with no step of agent P between its steps: its first step and up to six more.
In a state with no operation in progress and nothing presented on the C port, the steps after the last one of the
operation change nothing. -/
def runOp (i : Instr) (s : State) : Host.Outcome State Fault Refusal := andThen (exec i s) (cRun 6)

/-- Whole operations one after another. -/
def runOps : List Instr → State → Host.Outcome State Fault Refusal
  | [], s => .next s
  | i :: is, s => andThen (runOp i s) (runOps is)

/-- `n` steps of the machine. -/
def stepRun : Nat → State → Host.Outcome State Fault Refusal
  | 0, s => .next s
  | n + 1, s => andThen (step s) (stepRun n)

/-- The start of a run (R38, R59): the reset state, with the requests the environment will present and the turns it
will choose. -/
def launch (pIn cIn : List Request) (turns : List Turn) : State :=
  { State.reset with pIn := pIn, cIn := cIn, turns := turns }

/-- A `CMD` of six bytes (R175). -/
def acceptedCmd (i : Instr) : Prop := ∃ p : List Byte, i = .cmd p ∧ p.length = 6

/-- No operation of agent C is in progress and none is presented. -/
def State.cQuiet (s : State) : Prop := s.cWork = [] ∧ s.cIn = []

/-! ## Frames -/

/-- Everything outside the buffers, their storage and the P response port is unchanged (R31, row `WRB`). -/
def sameOutsideBuffers (s t : State) : Prop :=
  t.mc = s.mc ∧ t.wd = s.wd ∧ t.cWork = s.cWork ∧ t.pIn = s.pIn ∧ t.cIn = s.cIn ∧ t.cOut = s.cOut ∧
    t.turns = s.turns ∧ t.freeTurns = s.freeTurns

/-- Every byte of the storage reads as before, but for the address `a`. -/
def sameBytesBut (a : Nat) (s t : State) : Prop := ∀ x, x ≠ a → Memory.read t.mem x = Memory.read s.mem x

/-- Everything outside the legs, the C response port and the operation in progress is unchanged (R31, rows `SET`
and `FSAFE`). -/
def sameOutsideLegs (s t : State) : Prop :=
  t.tb = s.tb ∧ t.mem = s.mem ∧ t.wd = s.wd ∧ t.pIn = s.pIn ∧ t.cIn = s.cIn ∧ t.pOut = s.pOut ∧
    t.turns = s.turns ∧ t.freeTurns = s.freeTurns

/-- The outcome with the legs of its next state forgotten. -/
def eraseLegs (o : Host.Outcome State Fault Refusal) : Host.Outcome State Fault Refusal :=
  andThen o (fun t => .next { t with mc := State.reset.mc })

/-- The outcome with the frame storage of its next state forgotten. -/
def eraseStorage (o : Host.Outcome State Fault Refusal) : Host.Outcome State Fault Refusal :=
  andThen o (fun t => .next { t with mem := [] })

/-- The next turn is not the reset input. -/
def noReset (s : State) : Prop := ∀ dropP dropC rest, s.turns ≠ .rst dropP dropC :: rest

/-! ## Requests -/

/-- The length check of R85 for a request of opcode `op` whose bytes after the header are `rest`: it fails. -/
def lengthFails (op : Nat) (rest : List Byte) : Prop :=
  (op = 1 ∧ rest.length ≠ 1) ∨ ((op = 2 ∨ op = 5 ∨ op = 6) ∧ rest.length ≠ 0) ∨ (op = 3 ∧ rest.length ≠ 10) ∨
    (op = 4 ∧ rest.length ≠ 2) ∨
    (op = 7 ∧ ∀ n p, rest = n :: p → p.length ≠ n.toNat ∨ n.toNat ≠ 6)

/-- The checks of R85 in their order, over the numbers in the header `h` (R81), with the response of the first
that fails. -/
def refusedBy (a : Agent) (h : Byte) (rest : List Byte) (r : RequestRefusal) : Prop :=
  let op := h.toNat / 16
  let ch := h.toNat / 4 % 4
  let rsv := h.toNat % 4
  let badOp := op = 0 ∨ 8 ≤ op
  let badPort := (op = 1 ∧ a = .c) ∨ (op ≠ 1 ∧ a = .p)
  let badRsv := rsv ≠ 0
  let badCh := ((op = 1 ∨ op = 2 ∨ op = 4) ∧ ch = 3) ∨ ((op = 3 ∨ op = 5 ∨ op = 6 ∨ op = 7) ∧ ch ≠ 0)
  match r with
  | .illegalOpcode => badOp
  | .wrongPort => ¬ badOp ∧ badPort
  | .reservedBits => ¬ badOp ∧ ¬ badPort ∧ badRsv
  | .channelField => ¬ badOp ∧ ¬ badPort ∧ ¬ badRsv ∧ badCh
  | .length => ¬ badOp ∧ ¬ badPort ∧ ¬ badRsv ∧ ¬ badCh ∧ lengthFails op rest

/-- The responses an operation can give when its request is accepted by the decoder (R88). -/
def possibleResponse : Instr → Response → Prop
  | .wrb _ _, r => r = .ok ∨ r = .error .framing ∨ r = .error .overrun
  | .trs _, r => r = .noSample ∨ (∃ smp, r = .sample smp) ∨ r = .error .checksum ∨ r = .error .reentrant
  | .dec _, r => (∃ smp, r = .sample smp) ∨ r = .error .checksum
  | .set _ _, r => r = .ok
  | .fsafe, r => r = .ok
  | .tick, r => r = .ok
  | .cmd p, r => (p.length = 6 ∧ r = .ok) ∨ (p.length ≠ 6 ∧ r = .refused .length)

/-! ## Legs -/

/-- The legs a command leaves (R154). -/
def commandedLegs (command : Int) : MotorChannel :=
  if command = 0 then ⟨.ground, .ground⟩
  else if 0 < command then ⟨.pwm (BitVec.ofNat 16 command.natAbs), .ground⟩
  else ⟨.ground, .pwm (BitVec.ofNat 16 command.natAbs)⟩

/-- All six legs `Ground` (R15: fail-safe). -/
def allGround : PerChannel MotorChannel := ⟨⟨.ground, .ground⟩, ⟨.ground, .ground⟩, ⟨.ground, .ground⟩⟩

/-- A leg is PWM-driven. -/
def Leg.isPwm : Leg → Bool
  | .off => false
  | .ground => false
  | .pwm _ => true

/-- The leg values operations write (R26, R153): `Ground`, or `Pwm(d)` with `d` in 1..32768. -/
def Leg.written : Leg → Bool
  | .off => false
  | .ground => true
  | .pwm d => decide (1 ≤ d.toNat) && decide (d.toNat ≤ 32768)

/-- The three shapes of R158. -/
def MotorChannel.shape (m : MotorChannel) : Bool :=
  m.a.written && m.b.written && !(m.a.isPwm && m.b.isPwm)

/-- Every channel has one of the three shapes. -/
def legShapes (mc : PerChannel MotorChannel) : Prop := ∀ c : Channel, (mc.get c).shape = true

/-- Every channel has one of the three shapes now and after each of the leg writes `ws` in turn. -/
def writesKeepShapes : PerChannel MotorChannel → List LegWrite → Prop
  | mc, [] => legShapes mc
  | mc, w :: ws => legShapes mc ∧ writesKeepShapes (applyWrite w mc) ws

/-- The leg writes an operation in progress has still to do. -/
def Work.writes : Work → List LegWrite
  | .release _ => []
  | .legs w rest _ => w :: rest
  | .clearCount => []

/-- The shoot-through lockout as an invariant (R28, R157, R158): at most one operation of agent C is in progress
(R78), and the legs keep their shapes through all the leg writes it has still to do. -/
def LegInv (s : State) : Prop :=
  match s.cWork with
  | [] => legShapes s.mc
  | [w] => writesKeepShapes s.mc w.writes
  | _ :: _ :: _ => False

/-! ## Buffers -/

/-- Byte `i` of the storage of channel `c` holds a value. -/
def holdsByte (s : State) (c : Channel) (i : Nat) : Prop := Memory.read s.mem (frameAddr c i) ≠ none

/-- The reachable-state invariant of a buffer (R25) for the start marker `m`. -/
def bufferInv (m : Byte) (s : State) (c : Channel) : Prop :=
  ((s.buf c).state = .writing →
    1 ≤ (s.buf c).cursor.toNat ∧ (s.buf c).cursor.toNat ≤ 9 ∧ Memory.read s.mem (frameAddr c 0) = some m ∧
      ∀ i, i < (s.buf c).cursor.toNat → holdsByte s c i) ∧
  ((s.buf c).state ≠ .writing → (s.buf c).cursor = 0) ∧
  ((s.buf c).state = .doneWriting ∨ (s.buf c).state = .reading →
    Memory.read s.mem (frameAddr c 0) = some m ∧ ∀ i, i < 10 → holdsByte s c i)

/-- R25 for all three channels. -/
def BufInv (s : State) : Prop := ∀ c, bufferInv Config.params.startMarker s c

/-- Agent C is inside the read of channel `c` exactly when the buffer of `c` is `Reading` (R37, R109), and inside
at most one operation (R78). -/
def ReadInv (s : State) : Prop :=
  s.cWork.length ≤ 1 ∧ ∀ c, (s.buf c).state = .reading ↔ s.cWork = [.release c]

/-- The watchdog counter is in its range (R29). -/
def CountInv (s : State) : Prop := s.wd ≤ Config.params.wdMax

/-- Everything that holds in every reachable state of the block. -/
def Inv (s : State) : Prop :=
  Memory.wf s.mem = true ∧ BufInv s ∧ ReadInv s ∧ LegInv s ∧ CountInv s

/-! ## Bounded operations -/

/-- The operation in progress ends with the counter clear. -/
def Work.clears : Work → Bool
  | .release _ => false
  | .legs _ _ clears => clears
  | .clearCount => true

/-- How many steps an operation in progress has still to do (R234). -/
def Work.remaining : Work → Nat
  | .release _ => 1
  | .legs _ rest clears => 1 + rest.length + (if clears then 1 else 0)
  | .clearCount => 1

end Sys2Proof.Machine
end

