-- ==== Sys2Proof/Certificates/Slice0/Obligations.lean ====
section
/-! DEFINITION. The statements about the block, one per group of rules of spec/: each docstring names the rules. -/

open Sys2Proof Sys2Proof.Machine

/-! ## Requests -/

/-- R81 to R84: decoding an encoded well-formed operation on its own port gives it back, every operand at every
value. -/
def Obligations.DecodeAfterEncode : Prop :=
  ∀ i : Instr, i.wellFormed = true → decode i.port (encode i) = .ok i

/-- R83, R84: a request that decodes is exactly the encoding of what it decodes to; no byte of it is dropped. -/
def Obligations.EncodeAfterDecode : Prop :=
  ∀ (a : Agent) (bs : List Byte) (i : Instr), decode a bs = .ok i →
    encode i = bs ∧ i.port = a ∧ i.wellFormed = true

/-- R83: requests written out byte by byte decode to the operation they stand for (among them the requests
of vectors B11, A3 and W8). -/
def Obligations.WrittenRequestsDecode : Prop :=
  decode .p [0x18, 0x5A] = .ok (.wrb .ch2 0x5A) ∧
  decode .c [0x24] = .ok (.trs .ch1) ∧
  decode .c [0x30, 0x5A, 0x32, 0, 0, 0x01, 0x68, 0, 0x5A, 0, 0xA4] =
    .ok (.dec ⟨0x5A, 0x32, 0, 0, 0x01, 0x68, 0, 0x5A, 0, 0xA4⟩) ∧
  decode .c [0x44, 0xF8, 0x30] = .ok (.set .ch1 0xF830) ∧
  decode .c [0x50] = .ok .fsafe ∧
  decode .c [0x60] = .ok .tick ∧
  decode .c [0x70, 0x06, 0x03, 0xE8, 0xF8, 0x30, 0, 0] = .ok (.cmd [0x03, 0xE8, 0xF8, 0x30, 0, 0])

/-- R84, R85, R90: a request is refused by the first check that fails, in the order opcode, port, reserved bits,
channel, length (a `CMD` of another length than 6 among them), and then nothing changes but the response; a request
that fails no check is performed. -/
def Obligations.RefusalsInOrder : Prop :=
  ∀ (a : Agent) (h : Byte) (rest : List Byte) (s : State),
    (∀ r, refusedBy a h rest r → serve a (h :: rest) s = .next (respond a (.refused r) s)) ∧
    ((∀ r, ¬ refusedBy a h rest r) →
      ∃ i, i.port = a ∧ encode i = h :: rest ∧ serve a (h :: rest) s = exec i s)

/-- R86: the byte of `Ok`, of `None`, of the four error kinds the block raises and of the five refusals. -/
def Obligations.ResponseBytes : Prop :=
  Response.ok.bytes = [0x00] ∧ Response.noSample.bytes = [0x10] ∧
  (Response.error .framing).bytes = [0xE1] ∧ (Response.error .overrun).bytes = [0xE2] ∧
  (Response.error .checksum).bytes = [0xE3] ∧ (Response.error .reentrant).bytes = [0xE4] ∧
  (Response.refused .illegalOpcode).bytes = [0xF1] ∧ (Response.refused .reservedBits).bytes = [0xF2] ∧
  (Response.refused .channelField).bytes = [0xF3] ∧ (Response.refused .length).bytes = [0xF4] ∧
  (Response.refused .wrongPort).bytes = [0xF5]

/-- R87: the bytes of a `Some` response are `0x20` and bytes 1..7 of the decoded frame. -/
def Obligations.SampleBytesAreFrameBytes : Prop :=
  ∀ (f : Frame) (smp : Sample), decodeFrame f = some smp →
    (Response.sample smp).bytes = 0x20 :: [f.f1, f.f2, f.f3, f.f4, f.f5, f.f6, f.f7]

/-! ## Steps -/

/-- R59, R78: an agent's turn with a request presented that decodes, and, for agent C, no operation in progress,
is the first step of that operation. -/
def Obligations.TurnServesRequest : Prop :=
  ∀ (s : State) (rest : List Turn) (bs : Request) (reqs : List Request) (i : Instr),
    (s.turns = .p :: rest → s.pIn = bs :: reqs → decode .p bs = .ok i →
      step s = exec i { s with turns := rest, pIn := reqs }) ∧
    (s.turns = .c :: rest → s.cWork = [] → s.cIn = bs :: reqs → decode .c bs = .ok i →
      step s = exec i { s with turns := rest, cIn := reqs })

/-- R58, R59, R78: agent C's turn with an operation in progress is the next step of that operation, whatever is
presented on its port. -/
def Obligations.TurnContinuesOperation : Prop :=
  ∀ (s : State) (rest : List Turn) (w : Work) (ws : List Work), s.turns = .c :: rest → s.cWork = w :: ws →
    step s = continueWork w { s with turns := rest, cWork := ws }

/-- R59, R78: with no turn chosen, the agent that can move moves; when both can, one of the two does; when neither
can, nothing changes. That the machine goes on without a chosen turn is the model's own (notes/assumptions/5.md). -/
def Obligations.StepWithoutTurns : Prop :=
  ∀ s : State, s.turns = [] →
    (s.pIn ≠ [] → s.cWork = [] → s.cIn = [] → step s = pStep s) ∧
    (s.pIn = [] → step s = cStep s) ∧
    (s.pIn ≠ [] → (s.cWork ≠ [] ∨ s.cIn ≠ []) →
      step s = pStep { s with freeTurns := s.freeTurns + 1 } ∨
      step s = cStep { s with freeTurns := s.freeTurns + 1 }) ∧
    (s.pIn = [] → s.cWork = [] → s.cIn = [] → step s = .next s)

/-- The step after a request word is placed runs the operation the word decodes to; for an operation of agent C, with
no other operation of it in progress. Placing a word is the model's own (notes/assumptions/7.md). -/
def Obligations.PlacedWordRuns : Prop :=
  ∀ (s : State) (nbits w : Nat) (i : Instr), decodeTableWord nbits w = some i →
    (i.port = .p → step (s.withFetchWord nbits w) = exec i s) ∧
    (i.port = .c → step (s.withFetchWord nbits w) = exec i { s with cWork := [] })

/-- R78: every request gets exactly one response. Requests waiting and responses given on the P port, and requests
waiting, operations in progress and responses given on the C port, keep their number through every step that is not
a reset. -/
def Obligations.OneResponsePerRequest : Prop :=
  ∀ s t : State, noReset s → step s = .next t →
    t.pIn.length + t.pOut.length = s.pIn.length + s.pOut.length ∧
    t.cIn.length + t.cWork.length + t.cOut.length = s.cIn.length + s.cWork.length + s.cOut.length

/-- R88: a whole operation, begun with nothing of agent C in progress or presented, gives exactly one response, on its
own port, and one of those of the table. -/
def Obligations.ResponsesOfTheTable : Prop :=
  ∀ (i : Instr) (s t : State), s.cQuiet → runOp i s = .next t →
    ∃ r, possibleResponse i r ∧
      (i.port = .p → t.pOut = s.pOut ++ [r] ∧ t.cOut = s.cOut) ∧
      (i.port = .c → t.cOut = s.cOut ++ [r] ∧ t.pOut = s.pOut)

/-- R31, R206: a step of agent P changes no leg, no watchdog count, nothing of agent C's operation and nothing on
the C port. -/
def Obligations.ProducerTouchesOnlyBuffers : Prop :=
  ∀ s t : State, pStep s = .next t →
    t.mc = s.mc ∧ t.wd = s.wd ∧ t.cWork = s.cWork ∧ t.cIn = s.cIn ∧ t.cOut = s.cOut ∧ t.turns = s.turns ∧
      t.freeTurns = s.freeTurns ∧ t.pIn = s.pIn.tail

/-- R31, R105: a step of agent C never writes frame storage, never changes a cursor and changes nothing on the
P port. -/
def Obligations.ConsumerStoresNothing : Prop :=
  ∀ s t : State, cStep s = .next t →
    t.mem = s.mem ∧ (∀ a, Memory.read t.mem a = Memory.read s.mem a) ∧
      (∀ c, (t.buf c).cursor = (s.buf c).cursor) ∧ t.pIn = s.pIn ∧ t.pOut = s.pOut ∧ t.turns = s.turns ∧
      t.freeTurns = s.freeTurns

/-- R27: no result depends on the present value of a leg: two states that differ only in the legs take steps that
differ only in the legs. -/
def Obligations.LegsNeverRead : Prop :=
  ∀ (s : State) (mc : PerChannel MotorChannel), eraseLegs (step { s with mc := mc }) = eraseLegs (step s)

/-- R78, U8: a step of agent P and a leg write or counter clear of agent C give the same state in either order. -/
def Obligations.ProducerCommutesWithActuation : Prop :=
  ∀ (s : State) (w : Work) (ws : List Work), s.cWork = w :: ws → (∀ c, w ≠ .release c) →
    andThen (pStep s) cStep = andThen (cStep s) pStep

/-! ## WRB -/

/-- R101, R108: the start marker in `Idle`, or in `Writing` with cursor 0, is stored at index 0 and starts a
frame. -/
def Obligations.WrbStartsFrame : Prop :=
  ∀ (s : State) (c : Channel),
    (s.buf c).state = .idle ∨ ((s.buf c).state = .writing ∧ (s.buf c).cursor = 0) →
    ∃ t, exec (.wrb c Config.params.startMarker) s = .next t ∧ t.buf c = ⟨.writing, 1⟩ ∧
      Memory.read t.mem (frameAddr c 0) = some Config.params.startMarker ∧ sameBytesBut (frameAddr c 0) s t ∧
      (∀ d, d ≠ c → t.buf d = s.buf d) ∧ t.pOut = s.pOut ++ [.ok] ∧ sameOutsideBuffers s t

/-- R101, R108: in `Writing` with the cursor in 1..8 any byte, the start marker too, is stored at the cursor, which
advances. -/
def Obligations.WrbStoresByte : Prop :=
  ∀ (s : State) (c : Channel) (b : Byte), (s.buf c).state = .writing → 1 ≤ (s.buf c).cursor.toNat →
    (s.buf c).cursor.toNat ≤ 8 →
    ∃ t, exec (.wrb c b) s = .next t ∧ (t.buf c).state = .writing ∧
      (t.buf c).cursor.toNat = (s.buf c).cursor.toNat + 1 ∧
      Memory.read t.mem (frameAddr c (s.buf c).cursor.toNat) = some b ∧
      sameBytesBut (frameAddr c (s.buf c).cursor.toNat) s t ∧
      (∀ d, d ≠ c → t.buf d = s.buf d) ∧ t.pOut = s.pOut ++ [.ok] ∧ sameOutsideBuffers s t

/-- R101, R108: the tenth byte, whatever its value, is stored and publishes the frame. -/
def Obligations.WrbCompletesFrame : Prop :=
  ∀ (s : State) (c : Channel) (b : Byte), (s.buf c).state = .writing → (s.buf c).cursor = 9 →
    ∃ t, exec (.wrb c b) s = .next t ∧ t.buf c = ⟨.doneWriting, 0⟩ ∧
      Memory.read t.mem (frameAddr c 9) = some b ∧ sameBytesBut (frameAddr c 9) s t ∧
      (∀ d, d ≠ c → t.buf d = s.buf d) ∧ t.pOut = s.pOut ++ [.ok] ∧ sameOutsideBuffers s t

/-- R102: a byte other than the start marker in `Idle`, or in `Writing` with cursor 0, is lost: the cursor is 0,
the state and the storage are unchanged, the answer is `Framing`. -/
def Obligations.WrbFraming : Prop :=
  ∀ (s : State) (c : Channel) (b : Byte), b ≠ Config.params.startMarker →
    (s.buf c).state = .idle ∨ ((s.buf c).state = .writing ∧ (s.buf c).cursor = 0) →
    ∃ t, exec (.wrb c b) s = .next t ∧ t.buf c = ⟨(s.buf c).state, 0⟩ ∧ t.mem = s.mem ∧
      (∀ d, d ≠ c → t.buf d = s.buf d) ∧ t.pOut = s.pOut ++ [.error .framing] ∧ sameOutsideBuffers s t

/-- R103: every byte that arrives while the frame is unread is lost, whatever its value: the cursor is 0, the state
and the storage are unchanged, the answer is `Overrun`. -/
def Obligations.WrbOverrun : Prop :=
  ∀ (s : State) (c : Channel) (b : Byte), (s.buf c).state = .doneWriting ∨ (s.buf c).state = .reading →
    ∃ t, exec (.wrb c b) s = .next t ∧ t.buf c = ⟨(s.buf c).state, 0⟩ ∧ t.mem = s.mem ∧
      (∀ d, d ≠ c → t.buf d = s.buf d) ∧ t.pOut = s.pOut ++ [.error .overrun] ∧ sameOutsideBuffers s t

/-- R104: `WRB` stops exactly in `Writing` with the cursor in 10..15, and there with the model fault `BadCursor`. R104
lets a model type the cursor as 0..9 or take this fault; of the two, the fault is the model's choice
(notes/assumptions/11.md). -/
def Obligations.WrbStopsOnBadCursor : Prop :=
  ∀ (s : State) (c : Channel) (b : Byte),
    ((s.buf c).state = .writing ∧ 10 ≤ (s.buf c).cursor.toNat → exec (.wrb c b) s = .fault .badCursor) ∧
    (¬ ((s.buf c).state = .writing ∧ 10 ≤ (s.buf c).cursor.toNat) → ∃ t, exec (.wrb c b) s = .next t)

/-- R31, R54, R101: what `WRB` leaves unchanged. It stores at most one byte, at the index the byte takes, and none
unless the answer is `Ok`; it never touches another channel. -/
def Obligations.WrbFrame : Prop :=
  ∀ (s t : State) (c : Channel) (b : Byte), exec (.wrb c b) s = .next t →
    sameBytesBut (frameAddr c (wrbIndex (s.buf c)).toNat) s t ∧ (∀ d, d ≠ c → t.buf d = s.buf d) ∧
      sameOutsideBuffers s t ∧ (t.pOut = s.pOut ++ [.ok] ∨ (t.mem = s.mem ∧ (t.buf c).state = (s.buf c).state))

/-! ## TRS -/

/-- R106: the acquire step, row by row; it touches nothing but the state of its own buffer. -/
def Obligations.TrsAcquire : Prop :=
  ∀ (s : State) (c : Channel), ∃ t, exec (.trs c) s = .next t ∧
    ((s.buf c).state = .doneWriting →
      (t.buf c).state = .reading ∧ t.cWork = .release c :: s.cWork ∧ t.cOut = s.cOut) ∧
    ((s.buf c).state = .idle →
      (t.buf c).state = .idle ∧ t.cWork = s.cWork ∧ t.cOut = s.cOut ++ [.noSample]) ∧
    ((s.buf c).state = .writing →
      (t.buf c).state = .writing ∧ t.cWork = s.cWork ∧ t.cOut = s.cOut ++ [.noSample]) ∧
    ((s.buf c).state = .reading →
      (t.buf c).state = .idle ∧ t.cWork = s.cWork ∧ t.cOut = s.cOut ++ [.error .reentrant]) ∧
    (t.buf c).cursor = (s.buf c).cursor ∧ (∀ d, d ≠ c → t.buf d = s.buf d) ∧
    (∀ a, Memory.read t.mem a = Memory.read s.mem a) ∧ t.mc = s.mc ∧ t.wd = s.wd ∧ t.pIn = s.pIn ∧ t.cIn = s.cIn ∧
    t.pOut = s.pOut ∧ t.turns = s.turns ∧ t.freeTurns = s.freeTurns

/-- R105, R107: a `TRS` that finds a complete frame delivers it: the release step publishes `Idle` in both outcomes
and answers with the decoded Sample, or with `Checksum` if the checksum byte is wrong; the storage, the cursor and
everything else are unchanged. -/
def Obligations.TrsDelivers : Prop :=
  ∀ (s : State) (c : Channel) (f : Frame), (s.buf c).state = .doneWriting → readFrame s c = some f →
    ∃ t u, exec (.trs c) s = .next t ∧ cStep t = .next u ∧
      (f.f9 = checksum8 f → u.cOut = s.cOut ++ [.sample (decodeFields f)]) ∧
      (f.f9 ≠ checksum8 f → u.cOut = s.cOut ++ [.error .checksum]) ∧
      u.buf c = ⟨.idle, (s.buf c).cursor⟩ ∧ (∀ d, d ≠ c → u.buf d = s.buf d) ∧ u.cWork = s.cWork ∧
      (∀ a, Memory.read u.mem a = Memory.read s.mem a) ∧ u.mc = s.mc ∧ u.wd = s.wd ∧ u.pIn = s.pIn ∧
      u.cIn = s.cIn ∧ u.pOut = s.pOut ∧ u.turns = s.turns ∧ u.freeTurns = s.freeTurns

/-- R107 and R38: the release step stops when the buffer is not `Reading` (`BadRelease`), and when a byte of the
storage holds no value. -/
def Obligations.ReleaseStops : Prop :=
  ∀ (s : State) (c : Channel) (ws : List Work), s.cWork = .release c :: ws →
    ((s.buf c).state ≠ .reading → cStep s = .fault .badRelease) ∧
    ((s.buf c).state = .reading → readFrame s c = none → cStep s = .fault .readBeforeWrite)

/-- R106, R197, D15: a second acquire step inside the read window answers `Reentrant` and forces `Idle`; the first
reader's release step is then the model fault `BadRelease`. -/
def Obligations.ReentrantRead : Prop :=
  ∀ (s : State) (c : Channel) (ws : List Work), s.cWork = .release c :: ws → (s.buf c).state = .reading →
    ∃ t, exec (.trs c) s = .next t ∧ t.buf c = ⟨.idle, (s.buf c).cursor⟩ ∧
      t.cOut = s.cOut ++ [.error .reentrant] ∧ t.cWork = s.cWork ∧ cStep t = .fault .badRelease

/-- R109, R228: whatever agent P writes inside the read window, on any channel, the release step gives the same
answer, frees the buffer and leaves the frame as it stood; on the channel being read every byte is answered
`Overrun` and nothing is stored. -/
def Obligations.ReadWindow : Prop :=
  ∀ (s : State) (c : Channel) (ws : List Work) (f : Frame), s.cWork = .release c :: ws →
    (s.buf c).state = .reading → readFrame s c = some f →
    (∀ (ops : List (Channel × Byte)) (t : State), feedAll ops s = .next t →
      ∃ u v, cStep t = .next u ∧ cStep s = .next v ∧ u.cOut = v.cOut ∧ (u.buf c).state = .idle ∧
        u.cWork = v.cWork ∧ readFrame u c = some f) ∧
    (∀ bs : List Byte, ∃ t, feed c bs s = .next t ∧
      t.pOut = s.pOut ++ List.replicate bs.length (.error .overrun) ∧ t.mem = s.mem)

/-- R110, R111: from `Idle`, ten bytes that are a frame with the start marker and a correct checksum are all
accepted; the next `TRS` answers exactly the decoded Sample; the one after it answers `None`. -/
def Obligations.DeliveryExactlyOnce : Prop :=
  ∀ (s : State) (c : Channel) (f : Frame), (s.buf c).state = .idle → f.f0 = Config.params.startMarker →
    f.f9 = checksum8 f →
    ∃ t u v w, feed c f.toList s = .next t ∧ t.pOut = s.pOut ++ List.replicate 10 .ok ∧
      t.buf c = ⟨.doneWriting, 0⟩ ∧
      exec (.trs c) t = .next u ∧ cStep u = .next v ∧ v.cOut = s.cOut ++ [.sample (decodeFields f)] ∧
      v.buf c = ⟨.idle, 0⟩ ∧ exec (.trs c) v = .next w ∧ w.cOut = v.cOut ++ [.noSample]

/-- R111: after a read that gave a Sample, and after whatever agent P has written since, a second `TRS` of the channel
that finds the buffer not full answers `None`; immediately after the read it always does. -/
def Obligations.SecondReadReturnsNone : Prop :=
  ∀ (s t : State) (c : Channel) (smp : Sample), s.cQuiet → runOp (.trs c) s = .next t →
    t.cOut = s.cOut ++ [.sample smp] →
    exec (.trs c) t = .next (respond .c .noSample t) ∧
    ∀ (bs : List Byte) (u : State), feed c bs t = .next u →
      (u.buf c).state = .idle ∨ (u.buf c).state = .writing → exec (.trs c) u = .next (respond .c .noSample u)

/-- R24, R31, R32: agent C reads frame storage in a release step only, and there only in state `Reading`: any other of
its steps does the same whatever the storage holds. -/
def Obligations.StorageReadOnlyInRelease : Prop :=
  ∀ (s : State) (m : Memory), (∀ c ws, s.cWork = .release c :: ws → (s.buf c).state ≠ .reading) →
    eraseStorage (cStep { s with mem := m }) = eraseStorage (cStep s)

/-- R60 item 3, R25: no step but a reset stores into the storage of a channel whose buffer is `DoneWriting` or `Reading`. -/
def Obligations.NoStoreUnderReader : Prop :=
  ∀ (s t : State) (c : Channel), noReset s → step s = .next t →
    (s.buf c).state = .doneWriting ∨ (s.buf c).state = .reading →
    ∀ i, i < 10 → Memory.read t.mem (frameAddr c i) = Memory.read s.mem (frameAddr c i)

/-! ## Frame Decoder -/

/-- R131, R133, R134: `DEC` answers the Sample of R73 exactly when byte 9 is the complement of the exclusive-or of
bytes 0..8, else `Checksum`; it changes nothing but its response. -/
def Obligations.DecAnswers : Prop :=
  ∀ (s : State) (f : Frame),
    (f.f9 = ~~~(f.f0 ^^^ f.f1 ^^^ f.f2 ^^^ f.f3 ^^^ f.f4 ^^^ f.f5 ^^^ f.f6 ^^^ f.f7 ^^^ f.f8) →
      exec (.dec f) s = .next (respond .c (.sample ⟨f.f1.toInt, (f.f2 ++ f.f3 ++ f.f4 ++ f.f5).toInt,
        (f.f6 ++ f.f7).toInt⟩) s)) ∧
    (f.f9 ≠ ~~~(f.f0 ^^^ f.f1 ^^^ f.f2 ^^^ f.f3 ^^^ f.f4 ^^^ f.f5 ^^^ f.f6 ^^^ f.f7 ^^^ f.f8) →
      exec (.dec f) s = .next (respond .c (.error .checksum) s))

/-- R136, R137: encoding a Sample and decoding it gives it back, for every value of the three signed types and every
start marker. -/
def Obligations.SampleRoundTrip : Prop :=
  ∀ (p : Params) (sp an po : Int), -128 ≤ sp → sp ≤ 127 → -2147483648 ≤ an → an ≤ 2147483647 →
    -32768 ≤ po → po ≤ 32767 → decodeFrame (encodeFrame p ⟨sp, an, po⟩) = some ⟨sp, an, po⟩

/-- R133, R135 item 6: a frame is valid exactly when the exclusive-or of its ten bytes is `0xFF`; so every
permutation of a valid frame is valid. -/
def Obligations.ValidityIsOfTheBytes : Prop :=
  (∀ f : Frame, (decodeFrame f).isSome = true ↔ f.toList.foldl (· ^^^ ·) 0 = 0xFF) ∧
  (∀ f g : Frame, f.toList.Perm g.toList → (decodeFrame f).isSome = (decodeFrame g).isSome)

/-- R135 item 3: changing exactly one of the ten bytes of a valid frame makes it invalid. -/
def Obligations.SingleByteErrorDetected : Prop :=
  ∀ (f g : Frame) (i : Nat) (b : Byte), i < 10 → (decodeFrame f).isSome = true → f.toList[i]? ≠ some b →
    g.toList = f.toList.set i b → decodeFrame g = none

/-- R52, R53: the decoder's fields are the big-endian reads `MemRead(c:1, 1)`, `MemRead(c:2, 4)`, `MemRead(c:6, 2)`
and `MemRead(c:9, 1)` of the storage; a read past the ten bytes has no value. -/
def Obligations.MemReadGivesFields : Prop :=
  ∀ (s : State) (c : Channel) (f : Frame), readFrame s c = some f →
    memRead s c 1 1 = some f.f1.toNat ∧
    memRead s c 2 4 = some (f.f2 ++ f.f3 ++ f.f4 ++ f.f5).toNat ∧
    memRead s c 6 2 = some (f.f6 ++ f.f7).toNat ∧
    memRead s c 9 1 = some f.f9.toNat ∧
    (∀ i n, 10 < i + n → memRead s c i n = none)

/-! ## Motor Actuator -/

/-- R152, R153, R154: the two steps of `SET c, v`. The first grounds the losing leg (leg A for the command 0) and
leaves the other; the second leaves the legs of R154 and answers `Ok`; nothing else changes. -/
def Obligations.SetDrivesLegs : Prop :=
  ∀ (s : State) (c : Channel) (v : Half), ∃ t u, exec (.set c v) s = .next t ∧ cStep t = .next u ∧
    (v.toInt ≤ 0 → t.motor c = ⟨.ground, (s.motor c).b⟩) ∧
    (0 < v.toInt → t.motor c = ⟨(s.motor c).a, .ground⟩) ∧
    (v.toInt = 0 → u.motor c = ⟨.ground, .ground⟩) ∧
    (0 < v.toInt → ∃ d, u.motor c = ⟨.pwm d, .ground⟩ ∧ (d.toNat : Int) = v.toInt) ∧
    (v.toInt < 0 → ∃ d, u.motor c = ⟨.ground, .pwm d⟩ ∧ (d.toNat : Int) = -v.toInt) ∧
    (∀ d, d ≠ c → t.motor d = s.motor d ∧ u.motor d = s.motor d) ∧
    t.cOut = s.cOut ∧ u.cOut = s.cOut ++ [.ok] ∧ u.cWork = s.cWork ∧ sameOutsideLegs s t ∧ sameOutsideLegs s u

/-- R230: a `SET` that reverses the direction passes through the state with both legs `Ground`; one that keeps it
never grounds the driven leg. -/
def Obligations.ReversalPassesThroughBrake : Prop :=
  ∀ (s : State) (c : Channel) (v : Half) (x : Half), ∃ t, exec (.set c v) s = .next t ∧
    (s.motor c = ⟨.pwm x, .ground⟩ → v.toInt < 0 → t.motor c = ⟨.ground, .ground⟩) ∧
    (s.motor c = ⟨.ground, .pwm x⟩ → 0 < v.toInt → t.motor c = ⟨.ground, .ground⟩) ∧
    (s.motor c = ⟨.pwm x, .ground⟩ → 0 < v.toInt → t.motor c = ⟨.pwm x, .ground⟩) ∧
    (s.motor c = ⟨.ground, .pwm x⟩ → v.toInt < 0 → t.motor c = ⟨.ground, .pwm x⟩)

/-- R156, R221: `FSAFE` is six leg writes; its first grounds leg A of channel 0, and after the sixth every leg is
`Ground`, as at reset, and the answer is `Ok`; nothing else changes. -/
def Obligations.FsafeGroundsAll : Prop :=
  ∀ s : State, ∃ t u, exec .fsafe s = .next t ∧ cRun 5 t = .next u ∧
    t.motor .ch0 = ⟨.ground, (s.motor .ch0).b⟩ ∧ t.motor .ch1 = s.motor .ch1 ∧ t.motor .ch2 = s.motor .ch2 ∧
    t.cOut = s.cOut ∧ u.mc = allGround ∧ u.mc = State.reset.mc ∧ u.cOut = s.cOut ++ [.ok] ∧ u.cWork = s.cWork ∧
    sameOutsideLegs s t ∧ sameOutsideLegs s u

/-- R80: the 18-bit leg outputs of `Off`, `Ground` and `Pwm`, the value of the output of `Pwm(d)` for every duty `d`,
and the six outputs after reset. -/
def Obligations.LegOutputBits : Prop :=
  Leg.off.output = 0x00000 ∧ Leg.ground.output = 0x10000 ∧ (Leg.pwm 1000).output = 0x203E8 ∧
    (Leg.pwm 32768).output = 0x28000 ∧
    (∀ d : Half, (Leg.pwm d).output.toNat = 2 * 65536 + d.toNat) ∧
    State.reset.legOutputs = List.replicate 6 0x10000

/-! ## Watchdog and host command -/

/-- R172, R173: the count step of `TICK`, and what follows it. The counter saturates at `WD_MAX`; below the
threshold after the increment the operation ends with `Ok` and no leg write; at or above it the six leg writes of
`FSAFE` follow, and then `Ok`. -/
def Obligations.TickCounts : Prop :=
  ∀ s : State, ∃ t, exec .tick s = .next t ∧
    (s.wd < Config.params.wdMax → t.wd = s.wd + 1) ∧ (Config.params.wdMax ≤ s.wd → t.wd = s.wd) ∧
    t.mc = s.mc ∧ t.tb = s.tb ∧ (∀ a, Memory.read t.mem a = Memory.read s.mem a) ∧ t.pIn = s.pIn ∧ t.cIn = s.cIn ∧
    t.pOut = s.pOut ∧ t.turns = s.turns ∧ t.freeTurns = s.freeTurns ∧
    (t.wd < Config.params.wdThreshold → t.cWork = s.cWork ∧ t.cOut = s.cOut ++ [.ok]) ∧
    (Config.params.wdThreshold ≤ t.wd → t.cOut = s.cOut ∧
      t.cWork = .legs ⟨.ch0, .a, .ground⟩ [⟨.ch0, .b, .ground⟩, ⟨.ch1, .a, .ground⟩, ⟨.ch1, .b, .ground⟩,
        ⟨.ch2, .a, .ground⟩, ⟨.ch2, .b, .ground⟩] false :: s.cWork ∧
      ∃ u, cRun 6 t = .next u ∧ u.mc = allGround ∧ u.cOut = s.cOut ++ [.ok] ∧ u.cWork = s.cWork ∧
        sameOutsideLegs t u)

/-- R174: with the counter at 0, after whole operations among which is no accepted `CMD` the counter is the number of
`TICK`s among them, saturated at `WD_MAX`; the next `TICK` performs the fail-safe leg writes exactly when it is the
threshold-th or a later one; and an accepted `CMD` puts the counter to 0. -/
def Obligations.WatchdogCountsThroughOtherOperations : Prop :=
  (∀ (ops : List Instr) (s t : State), s.cQuiet → s.wd = 0 → (∀ i, i ∈ ops → ¬ acceptedCmd i) →
    runOps ops s = .next t →
    t.cQuiet ∧ t.wd = min (ops.count .tick) Config.params.wdMax ∧
      ∃ u, exec .tick t = .next u ∧
        (ops.count .tick + 1 < Config.params.wdThreshold → u.cWork = [] ∧ u.mc = t.mc ∧ u.cOut = t.cOut ++ [.ok]) ∧
        (Config.params.wdThreshold ≤ ops.count .tick + 1 → u.cWork = [.legs ⟨.ch0, .a, .ground⟩
          [⟨.ch0, .b, .ground⟩, ⟨.ch1, .a, .ground⟩, ⟨.ch1, .b, .ground⟩, ⟨.ch2, .a, .ground⟩,
            ⟨.ch2, .b, .ground⟩] false])) ∧
  (∀ (i : Instr) (s : State), s.cQuiet → acceptedCmd i → ∃ t, runOp i s = .next t ∧ t.cQuiet ∧ t.wd = 0)

/-- R161, R231: a direct `SET` while timed out takes effect, leaves the counter, and lasts until the next `TICK`, which
grounds all legs again. -/
def Obligations.DirectSetLastsUntilTick : Prop :=
  ∀ (s : State) (c : Channel) (v : Half), s.cQuiet → timedOut Config.params s = true →
    ∃ t u, runOp (.set c v) s = .next t ∧ t.motor c = commandedLegs v.toInt ∧ t.wd = s.wd ∧
      (∀ p, pStep t = .next p → p.mc = t.mc) ∧ runOp .tick t = .next u ∧ u.mc = allGround

/-- R174: with the counter at 0, after `k` ticks and no command the counter is `k`, saturated at `WD_MAX`; the legs
are untouched below the threshold and all `Ground` from it on; and the next tick performs the fail-safe leg writes
exactly when it is the threshold-th or a later one. -/
def Obligations.WatchdogForcesFailSafe : Prop :=
  ∀ (s : State) (k : Nat), s.cQuiet → s.wd = 0 →
    ∃ t, runOps (pseudoTicks k) s = .next t ∧ t.cQuiet ∧ t.wd = min k Config.params.wdMax ∧
      t.cOut = s.cOut ++ List.replicate k .ok ∧
      (k < Config.params.wdThreshold → t.mc = s.mc) ∧ (Config.params.wdThreshold ≤ k → t.mc = allGround) ∧
      ∃ u, exec .tick t = .next u ∧
        (k + 1 < Config.params.wdThreshold → u.cWork = [] ∧ u.cOut = t.cOut ++ [.ok]) ∧
        (Config.params.wdThreshold ≤ k + 1 → u.cOut = t.cOut ∧ u.cWork = [.legs ⟨.ch0, .a, .ground⟩
          [⟨.ch0, .b, .ground⟩, ⟨.ch1, .a, .ground⟩, ⟨.ch1, .b, .ground⟩, ⟨.ch2, .a, .ground⟩,
            ⟨.ch2, .b, .ground⟩] false])

/-- R74, R175: an accepted `CMD` sets the three channels from its three big-endian values and clears the watchdog
in its last step, after the six leg writes; nothing else changes. -/
def Obligations.CmdSetsAndClears : Prop :=
  ∀ (s : State) (p0 p1 p2 p3 p4 p5 : Byte), ∃ t u v,
    exec (.cmd [p0, p1, p2, p3, p4, p5]) s = .next t ∧ cRun 5 t = .next u ∧ cStep u = .next v ∧
    u.mc = ⟨commandedLegs (p0 ++ p1).toInt, commandedLegs (p2 ++ p3).toInt, commandedLegs (p4 ++ p5).toInt⟩ ∧
    u.wd = s.wd ∧ u.cOut = s.cOut ∧ v.mc = u.mc ∧ v.wd = 0 ∧ v.cOut = s.cOut ++ [.ok] ∧ v.cWork = s.cWork ∧
    v.tb = s.tb ∧ (∀ a, Memory.read v.mem a = Memory.read s.mem a) ∧ v.pIn = s.pIn ∧ v.cIn = s.cIn ∧
    v.pOut = s.pOut ∧ v.turns = s.turns ∧ v.freeTurns = s.freeTurns

/-- R175, R232: a `CMD` of any other length is dropped whole: it changes nothing, the watchdog counter included,
and answers the refusal for its length. -/
def Obligations.CmdOfWrongLengthDropped : Prop :=
  ∀ (s : State) (p : List Byte), p.length ≠ 6 →
    exec (.cmd p) s = .next (respond .c (.refused .length) s)

/-- R176: a step that is not a reset changes the watchdog counter only by a `TICK`'s increment or by the last step of
an accepted `CMD`; and no operation but a `CMD` of six bytes ends with that step. -/
def Obligations.OnlyCommandFeedsWatchdog : Prop :=
  (∀ s t : State, noReset s → step s = .next t →
    t.wd = s.wd ∨ t.wd = s.wd + 1 ∨ (t.wd = 0 ∧ ∃ ws, s.cWork = .clearCount :: ws)) ∧
  (∀ (i : Instr) (s t : State), exec i s = .next t →
    (t.wd ≠ s.wd → i = .tick) ∧
    (t.cWork = s.cWork ∨ ∃ w, t.cWork = w :: s.cWork ∧
      (w.clears = true → ∃ p : List Byte, i = .cmd p ∧ p.length = 6)))

/-! ## Reset -/

/-- R38: after reset every buffer is `Idle` with cursor 0, every leg is `Ground`, the watchdog counter is 0 and the
derived condition `timed_out` is false. (`Idle`, the cursor and the counter are decisions of the spec.) -/
def Obligations.ResetValues : Prop :=
  (∀ c, State.reset.buf c = ⟨.idle, 0⟩) ∧ (∀ c, State.reset.motor c = ⟨.ground, .ground⟩) ∧ State.reset.wd = 0 ∧
    timedOut Config.params State.reset = false

/-- R77, R220: the reset input puts the state of R38, and a request presented meanwhile is not performed and gets no
response. What a reset in the middle of a run does beyond that is the model's choice (notes/assumptions/9.md): it drops
agent C's operation in progress and keeps the responses already given, the requests not yet presented and the later
turns. -/
def Obligations.ResetInput : Prop :=
  ∀ (s : State) (dropP dropC : Bool) (rest : List Turn), s.turns = .rst dropP dropC :: rest →
    ∃ t, step s = .next t ∧ t.tb = State.reset.tb ∧ t.mc = State.reset.mc ∧ t.wd = 0 ∧ t.cWork = [] ∧
      (∀ a, Memory.read t.mem a = none) ∧ t.pOut = s.pOut ∧ t.cOut = s.cOut ∧ t.turns = rest ∧
      t.pIn = (if dropP then s.pIn.tail else s.pIn) ∧ t.cIn = (if dropC then s.cIn.tail else s.cIn)

/-- R223: after reset, `TRS` answers `None` and leaves the reset state; `WRB` of a byte that is not the start marker
answers `Framing` and leaves the reset state; `WRB` of the start marker is accepted and leaves `Writing` with cursor 1;
`TICK` counts to 1. -/
def Obligations.FirstOperationsAfterReset : Prop :=
  (∀ c, exec (.trs c) State.reset = .next (respond .c .noSample State.reset)) ∧
  (∀ c b, b ≠ Config.params.startMarker →
    exec (.wrb c b) State.reset = .next (respond .p (.error .framing) State.reset)) ∧
  (∀ c, ∃ t, exec (.wrb c Config.params.startMarker) State.reset = .next t ∧ t.buf c = ⟨.writing, 1⟩ ∧
    t.pOut = [.ok]) ∧
  (∃ t, exec .tick State.reset = .next t ∧ t.wd = 1)

/-! ## Invariants -/

/-- R28: in every run from reset, whatever the environment presents and however the two agents' steps interleave, no
channel has both legs `Pwm` after any step, and a step that drives a leg to `Pwm` finds its complement at `Ground` or
`Off` already. -/
def Obligations.NoShootThroughInAnyRun : Prop :=
  ∀ (pIn cIn : List Request) (turns : List Turn) (n : Nat) (s : State), stepRun n (launch pIn cIn turns) = .next s →
    ∀ c, (∀ d e, s.motor c ≠ ⟨.pwm d, .pwm e⟩) ∧
      ∀ t, step s = .next t →
        (∀ d, (t.motor c).a = .pwm d → (s.motor c).a ≠ .pwm d → (s.motor c).b = .ground ∨ (s.motor c).b = .off) ∧
        (∀ d, (t.motor c).b = .pwm d → (s.motor c).b ≠ .pwm d → (s.motor c).a = .ground ∨ (s.motor c).a = .off)

/-- R28, R157, R158, R159: every step keeps the shoot-through lockout and the three shapes of the legs. -/
def Obligations.StepKeepsLegInv : Prop :=
  ∀ s t : State, LegInv s → step s = .next t → LegInv t

/-- R28, R158, R159: in a state that meets the invariant no channel has both legs `Pwm`, no leg is `Off`, and a
duty is in 1..32768. -/
def Obligations.LegInvExcludesShootThrough : Prop :=
  ∀ (s : State) (c : Channel), LegInv s →
    (∀ d e, s.motor c ≠ ⟨.pwm d, .pwm e⟩) ∧ (s.motor c).a ≠ .off ∧ (s.motor c).b ≠ .off ∧
      (∀ d, (s.motor c).a = .pwm d ∨ (s.motor c).b = .pwm d → 1 ≤ d.toNat ∧ d.toNat ≤ 32768)

/-- R25, R60: every step keeps the reachable-state invariant of all three buffers. -/
def Obligations.StepKeepsBufInv : Prop :=
  ∀ s t : State, BufInv s → step s = .next t → BufInv t

/-- Every step keeps frame storage canonical: its keys rise strictly and stay below thirty, the number of its bytes
(R50). The canonical list and the keys are the model's choice (notes/assumptions/3.md): R50 gives the bytes, not how
they are held. -/
def Obligations.StepKeepsStorageCanonical : Prop :=
  ∀ s t : State, Memory.wf s.mem = true → step s = .next t → Memory.wf t.mem = true

/-- R29, R173: every step keeps the watchdog counter at or below `WD_MAX`. -/
def Obligations.StepKeepsCountInv : Prop :=
  ∀ s t : State, CountInv s → step s = .next t → CountInv t

/-- R198, R234: from a state that meets the invariants no step stops, and the invariants hold again, so that along a
run from such a state no model fault is met. -/
def Obligations.InvNeverStops : Prop :=
  ∀ s : State, Inv s → ∃ t, step s = .next t ∧ Inv t

/-- R38: the reset state meets the invariants, whatever requests and turns the environment has in store. -/
def Obligations.ResetMeetsInv : Prop :=
  ∀ (pIn cIn : List Request) (turns : List Turn),
    Inv { State.reset with pIn := pIn, cIn := cIn, turns := turns }

/-- R234: every operation is a bounded number of steps, none of which waits: an operation leaves at most six more
steps to do, and each of agent C's steps does one of them, the last of them ending the operation with a response. -/
def Obligations.OperationsAreBounded : Prop :=
  (∀ (i : Instr) (s t : State), exec i s = .next t →
    t.cWork = s.cWork ∨ ∃ w, t.cWork = w :: s.cWork ∧ w.remaining ≤ 6) ∧
  (∀ (s t : State) (w : Work) (ws : List Work), s.cWork = w :: ws → cStep s = .next t →
    (w.remaining = 1 → t.cWork = ws ∧ t.cOut.length = s.cOut.length + 1) ∧
    (1 < w.remaining → t.cOut = s.cOut ∧ ∃ w', t.cWork = w' :: ws ∧ w'.remaining + 1 = w.remaining))
end

