-- ==== Sys2Proof/Laws/State.lean ====
section
/-! SUPPORT. What each update of State changes, field by field, so that no proof unfolds a record update. -/

namespace Sys2Proof.Machine

/-! ## Channels -/

@[simp] theorem PerChannel.get_put_same {α : Type} (x : PerChannel α) (c : Channel) (v : α) :
    (x.put c v).get c = v := by cases c <;> rfl

@[simp] theorem PerChannel.get_put_ne {α : Type} (x : PerChannel α) {c d : Channel} (v : α) (h : d ≠ c) :
    (x.put c v).get d = x.get d := by
  cases c <;> cases d <;> first | rfl | exact absurd rfl h

@[simp] theorem PerChannel.put_put {α : Type} (x : PerChannel α) (c : Channel) (v w : α) :
    (x.put c v).put c w = x.put c w := by cases c <;> rfl

@[simp] theorem PerChannel.put_get {α : Type} (x : PerChannel α) (c : Channel) : x.put c (x.get c) = x := by
  cases c <;> rfl

theorem PerChannel.ext_get {α : Type} {x y : PerChannel α} (h : ∀ c, x.get c = y.get c) : x = y := by
  obtain ⟨a, b, d⟩ := x
  obtain ⟨a', b', d'⟩ := y
  have h0 := h .ch0
  have h1 := h .ch1
  have h2 := h .ch2
  simp only [PerChannel.get] at h0 h1 h2
  rw [h0, h1, h2]

/-! ## setState -/

@[simp] theorem setState_tb (c : Channel) (v : BufState) (s : State) : (setState c v s).tb = s.tb.put c { s.buf c with state := v } := rfl

@[simp] theorem setState_mem (c : Channel) (v : BufState) (s : State) : (setState c v s).mem = s.mem := rfl

@[simp] theorem setState_mc (c : Channel) (v : BufState) (s : State) : (setState c v s).mc = s.mc := rfl

@[simp] theorem setState_wd (c : Channel) (v : BufState) (s : State) : (setState c v s).wd = s.wd := rfl

@[simp] theorem setState_cWork (c : Channel) (v : BufState) (s : State) : (setState c v s).cWork = s.cWork := rfl

@[simp] theorem setState_pIn (c : Channel) (v : BufState) (s : State) : (setState c v s).pIn = s.pIn := rfl

@[simp] theorem setState_cIn (c : Channel) (v : BufState) (s : State) : (setState c v s).cIn = s.cIn := rfl

@[simp] theorem setState_pOut (c : Channel) (v : BufState) (s : State) : (setState c v s).pOut = s.pOut := rfl

@[simp] theorem setState_cOut (c : Channel) (v : BufState) (s : State) : (setState c v s).cOut = s.cOut := rfl

@[simp] theorem setState_turns (c : Channel) (v : BufState) (s : State) : (setState c v s).turns = s.turns := rfl

@[simp] theorem setState_freeTurns (c : Channel) (v : BufState) (s : State) : (setState c v s).freeTurns = s.freeTurns := rfl

@[simp] theorem setState_buf_same (c : Channel) (v : BufState) (s : State) :
    (setState c v s).buf c = { s.buf c with state := v } := by
  simp [State.buf]

@[simp] theorem setState_buf_ne (c : Channel) (v : BufState) (s : State) (d : Channel) (h : d ≠ c) :
    (setState c v s).buf d = s.buf d := by
  simp [State.buf, h]

/-! ## setCursor -/

@[simp] theorem setCursor_tb (c : Channel) (v : BitVec 4) (s : State) : (setCursor c v s).tb = s.tb.put c { s.buf c with cursor := v } := rfl

@[simp] theorem setCursor_mem (c : Channel) (v : BitVec 4) (s : State) : (setCursor c v s).mem = s.mem := rfl

@[simp] theorem setCursor_mc (c : Channel) (v : BitVec 4) (s : State) : (setCursor c v s).mc = s.mc := rfl

@[simp] theorem setCursor_wd (c : Channel) (v : BitVec 4) (s : State) : (setCursor c v s).wd = s.wd := rfl

@[simp] theorem setCursor_cWork (c : Channel) (v : BitVec 4) (s : State) : (setCursor c v s).cWork = s.cWork := rfl

@[simp] theorem setCursor_pIn (c : Channel) (v : BitVec 4) (s : State) : (setCursor c v s).pIn = s.pIn := rfl

@[simp] theorem setCursor_cIn (c : Channel) (v : BitVec 4) (s : State) : (setCursor c v s).cIn = s.cIn := rfl

@[simp] theorem setCursor_pOut (c : Channel) (v : BitVec 4) (s : State) : (setCursor c v s).pOut = s.pOut := rfl

@[simp] theorem setCursor_cOut (c : Channel) (v : BitVec 4) (s : State) : (setCursor c v s).cOut = s.cOut := rfl

@[simp] theorem setCursor_turns (c : Channel) (v : BitVec 4) (s : State) : (setCursor c v s).turns = s.turns := rfl

@[simp] theorem setCursor_freeTurns (c : Channel) (v : BitVec 4) (s : State) : (setCursor c v s).freeTurns = s.freeTurns := rfl

@[simp] theorem setCursor_buf_same (c : Channel) (v : BitVec 4) (s : State) :
    (setCursor c v s).buf c = { s.buf c with cursor := v } := by
  simp [State.buf]

@[simp] theorem setCursor_buf_ne (c : Channel) (v : BitVec 4) (s : State) (d : Channel) (h : d ≠ c) :
    (setCursor c v s).buf d = s.buf d := by
  simp [State.buf, h]

/-! ## setCount -/

@[simp] theorem setCount_tb (n : Nat) (s : State) : (setCount n s).tb = s.tb := rfl

@[simp] theorem setCount_mem (n : Nat) (s : State) : (setCount n s).mem = s.mem := rfl

@[simp] theorem setCount_mc (n : Nat) (s : State) : (setCount n s).mc = s.mc := rfl

@[simp] theorem setCount_wd (n : Nat) (s : State) : (setCount n s).wd = n := rfl

@[simp] theorem setCount_cWork (n : Nat) (s : State) : (setCount n s).cWork = s.cWork := rfl

@[simp] theorem setCount_pIn (n : Nat) (s : State) : (setCount n s).pIn = s.pIn := rfl

@[simp] theorem setCount_cIn (n : Nat) (s : State) : (setCount n s).cIn = s.cIn := rfl

@[simp] theorem setCount_pOut (n : Nat) (s : State) : (setCount n s).pOut = s.pOut := rfl

@[simp] theorem setCount_cOut (n : Nat) (s : State) : (setCount n s).cOut = s.cOut := rfl

@[simp] theorem setCount_turns (n : Nat) (s : State) : (setCount n s).turns = s.turns := rfl

@[simp] theorem setCount_freeTurns (n : Nat) (s : State) : (setCount n s).freeTurns = s.freeTurns := rfl

@[simp] theorem setCount_buf (n : Nat) (s : State) (d : Channel) : (setCount n s).buf d = s.buf d := rfl

/-! ## memWrite -/

@[simp] theorem memWrite_tb (c : Channel) (i : Fin 10) (v : Byte) (s : State) : (memWrite c i v s).tb = s.tb := rfl

@[simp] theorem memWrite_mem (c : Channel) (i : Fin 10) (v : Byte) (s : State) : (memWrite c i v s).mem = Memory.write s.mem (frameAddr c i.val) v := rfl

@[simp] theorem memWrite_mc (c : Channel) (i : Fin 10) (v : Byte) (s : State) : (memWrite c i v s).mc = s.mc := rfl

@[simp] theorem memWrite_wd (c : Channel) (i : Fin 10) (v : Byte) (s : State) : (memWrite c i v s).wd = s.wd := rfl

@[simp] theorem memWrite_cWork (c : Channel) (i : Fin 10) (v : Byte) (s : State) : (memWrite c i v s).cWork = s.cWork := rfl

@[simp] theorem memWrite_pIn (c : Channel) (i : Fin 10) (v : Byte) (s : State) : (memWrite c i v s).pIn = s.pIn := rfl

@[simp] theorem memWrite_cIn (c : Channel) (i : Fin 10) (v : Byte) (s : State) : (memWrite c i v s).cIn = s.cIn := rfl

@[simp] theorem memWrite_pOut (c : Channel) (i : Fin 10) (v : Byte) (s : State) : (memWrite c i v s).pOut = s.pOut := rfl

@[simp] theorem memWrite_cOut (c : Channel) (i : Fin 10) (v : Byte) (s : State) : (memWrite c i v s).cOut = s.cOut := rfl

@[simp] theorem memWrite_turns (c : Channel) (i : Fin 10) (v : Byte) (s : State) : (memWrite c i v s).turns = s.turns := rfl

@[simp] theorem memWrite_freeTurns (c : Channel) (i : Fin 10) (v : Byte) (s : State) : (memWrite c i v s).freeTurns = s.freeTurns := rfl

@[simp] theorem memWrite_buf (c : Channel) (i : Fin 10) (v : Byte) (s : State) (d : Channel) : (memWrite c i v s).buf d = s.buf d := rfl

/-! ## pushWork -/

@[simp] theorem pushWork_tb (w : Work) (s : State) : (pushWork w s).tb = s.tb := rfl

@[simp] theorem pushWork_mem (w : Work) (s : State) : (pushWork w s).mem = s.mem := rfl

@[simp] theorem pushWork_mc (w : Work) (s : State) : (pushWork w s).mc = s.mc := rfl

@[simp] theorem pushWork_wd (w : Work) (s : State) : (pushWork w s).wd = s.wd := rfl

@[simp] theorem pushWork_cWork (w : Work) (s : State) : (pushWork w s).cWork = w :: s.cWork := rfl

@[simp] theorem pushWork_pIn (w : Work) (s : State) : (pushWork w s).pIn = s.pIn := rfl

@[simp] theorem pushWork_cIn (w : Work) (s : State) : (pushWork w s).cIn = s.cIn := rfl

@[simp] theorem pushWork_pOut (w : Work) (s : State) : (pushWork w s).pOut = s.pOut := rfl

@[simp] theorem pushWork_cOut (w : Work) (s : State) : (pushWork w s).cOut = s.cOut := rfl

@[simp] theorem pushWork_turns (w : Work) (s : State) : (pushWork w s).turns = s.turns := rfl

@[simp] theorem pushWork_freeTurns (w : Work) (s : State) : (pushWork w s).freeTurns = s.freeTurns := rfl

@[simp] theorem pushWork_buf (w : Work) (s : State) (d : Channel) : (pushWork w s).buf d = s.buf d := rfl

/-! ## legWrite -/

@[simp] theorem legWrite_tb (w : LegWrite) (s : State) : (legWrite w s).tb = s.tb := rfl

@[simp] theorem legWrite_mem (w : LegWrite) (s : State) : (legWrite w s).mem = s.mem := rfl

@[simp] theorem legWrite_mc (w : LegWrite) (s : State) : (legWrite w s).mc = applyWrite w s.mc := rfl

@[simp] theorem legWrite_wd (w : LegWrite) (s : State) : (legWrite w s).wd = s.wd := rfl

@[simp] theorem legWrite_cWork (w : LegWrite) (s : State) : (legWrite w s).cWork = s.cWork := rfl

@[simp] theorem legWrite_pIn (w : LegWrite) (s : State) : (legWrite w s).pIn = s.pIn := rfl

@[simp] theorem legWrite_cIn (w : LegWrite) (s : State) : (legWrite w s).cIn = s.cIn := rfl

@[simp] theorem legWrite_pOut (w : LegWrite) (s : State) : (legWrite w s).pOut = s.pOut := rfl

@[simp] theorem legWrite_cOut (w : LegWrite) (s : State) : (legWrite w s).cOut = s.cOut := rfl

@[simp] theorem legWrite_turns (w : LegWrite) (s : State) : (legWrite w s).turns = s.turns := rfl

@[simp] theorem legWrite_freeTurns (w : LegWrite) (s : State) : (legWrite w s).freeTurns = s.freeTurns := rfl

@[simp] theorem legWrite_buf (w : LegWrite) (s : State) (d : Channel) : (legWrite w s).buf d = s.buf d := rfl

/-! ## respond and raise -/

@[simp] theorem respond_tb (a : Agent) (r : Response) (s : State) : (respond a r s).tb = s.tb := by
  cases a <;> rfl

@[simp] theorem respond_mem (a : Agent) (r : Response) (s : State) : (respond a r s).mem = s.mem := by
  cases a <;> rfl

@[simp] theorem respond_mc (a : Agent) (r : Response) (s : State) : (respond a r s).mc = s.mc := by
  cases a <;> rfl

@[simp] theorem respond_wd (a : Agent) (r : Response) (s : State) : (respond a r s).wd = s.wd := by
  cases a <;> rfl

@[simp] theorem respond_cWork (a : Agent) (r : Response) (s : State) : (respond a r s).cWork = s.cWork := by
  cases a <;> rfl

@[simp] theorem respond_pIn (a : Agent) (r : Response) (s : State) : (respond a r s).pIn = s.pIn := by
  cases a <;> rfl

@[simp] theorem respond_cIn (a : Agent) (r : Response) (s : State) : (respond a r s).cIn = s.cIn := by
  cases a <;> rfl

@[simp] theorem respond_p_pOut (r : Response) (s : State) : (respond .p r s).pOut = s.pOut ++ [r] := rfl

@[simp] theorem respond_c_pOut (r : Response) (s : State) : (respond .c r s).pOut = s.pOut := rfl

@[simp] theorem respond_c_cOut (r : Response) (s : State) : (respond .c r s).cOut = s.cOut ++ [r] := rfl

@[simp] theorem respond_p_cOut (r : Response) (s : State) : (respond .p r s).cOut = s.cOut := rfl

@[simp] theorem respond_turns (a : Agent) (r : Response) (s : State) : (respond a r s).turns = s.turns := by
  cases a <;> rfl

@[simp] theorem respond_freeTurns (a : Agent) (r : Response) (s : State) : (respond a r s).freeTurns = s.freeTurns := by
  cases a <;> rfl

@[simp] theorem respond_buf (a : Agent) (r : Response) (s : State) (d : Channel) :
    (respond a r s).buf d = s.buf d := by cases a <;> rfl

/-- An error is a response like any other (R190). -/
@[simp] theorem raise_eq_respond (a : Agent) (e : ErrorKind) (s : State) :
    raise a e s = respond a (.error e) s := rfl

end Sys2Proof.Machine
end

