-- ==== Sys2Proof/Laws/Memory.lean ====
section
/-! SUPPORT. The laws of frame storage: a read after a write, the canonical form, and the ten-byte read. -/

namespace Sys2Proof.Machine

theorem Memory.read_write_same (m : Memory) (a : Nat) (b : Byte) : Memory.read (Memory.write m a b) a = some b := by
  induction m with
  | nil => simp [Memory.write, Memory.read]
  | cons kv rest ih =>
    obtain ⟨k, v⟩ := kv
    by_cases h1 : a < k
    · simp [Memory.write, Memory.read, h1]
    · by_cases h2 : a = k
      · simp [Memory.write, Memory.read, h2]
      · simp [Memory.write, Memory.read, h1, h2, Ne.symm h2, ih]

theorem Memory.read_write_ne (m : Memory) {a x : Nat} (b : Byte) (h : x ≠ a) :
    Memory.read (Memory.write m a b) x = Memory.read m x := by
  induction m with
  | nil => simp [Memory.write, Memory.read, Ne.symm h]
  | cons kv rest ih =>
    obtain ⟨k, v⟩ := kv
    by_cases h1 : a < k
    · simp [Memory.write, Memory.read, h1, Ne.symm h]
    · by_cases h2 : a = k
      · subst h2
        simp [Memory.write, Memory.read, Ne.symm h]
      · simp [Memory.write, Memory.read, h1, h2, ih]

/-- A read of one byte after a write of one byte. -/
theorem Memory.read_write (m : Memory) (a x : Nat) (b : Byte) :
    Memory.read (Memory.write m a b) x = if x = a then some b else Memory.read m x := by
  by_cases h : x = a
  · subst h; simp [Memory.read_write_same]
  · simp [h, Memory.read_write_ne m b h]

theorem Memory.write_wfFrom {m : Memory} {lo a : Nat} (b : Byte) (hm : Memory.wfFrom lo m = true) (hlo : lo ≤ a)
    (ha : a < memSize) : Memory.wfFrom lo (Memory.write m a b) = true := by
  induction m generalizing lo with
  | nil => simp [Memory.write, Memory.wfFrom, hlo, ha]
  | cons kv rest ih =>
    obtain ⟨k, v⟩ := kv
    simp only [Memory.wfFrom, Bool.and_eq_true, decide_eq_true_eq] at hm
    obtain ⟨⟨h1, h2⟩, h3⟩ := hm
    by_cases h : a < k
    · simp [Memory.write, Memory.wfFrom, h, hlo, ha, h2, h3]
    · by_cases h' : a = k
      · subst h'
        simp [Memory.write, Memory.wfFrom, h1, h2, h3]
      · simp [Memory.write, Memory.wfFrom, h, h', h1, h2, ih h3 (by omega)]

/-- A write inside the storage keeps the canonical form. -/
theorem Memory.write_wf {m : Memory} {a : Nat} (b : Byte) (hm : Memory.wf m = true) (ha : a < memSize) :
    Memory.wf (Memory.write m a b) = true := Memory.write_wfFrom b hm (Nat.zero_le a) ha

theorem Memory.wf_nil : Memory.wf [] = true := rfl

/-- In the canonical form an address below the bound is not listed. -/
theorem Memory.read_below {m : Memory} {lo a : Nat} (hm : Memory.wfFrom lo m = true) (h : a < lo) :
    Memory.read m a = none := by
  induction m generalizing lo with
  | nil => rfl
  | cons kv rest ih =>
    obtain ⟨k, v⟩ := kv
    simp only [Memory.wfFrom, Bool.and_eq_true, decide_eq_true_eq] at hm
    have hk : k ≠ a := by omega
    simp only [Memory.read, hk, if_false]
    exact ih hm.2 (by omega)

/-- Canonical memories that read the same are the same data. -/
theorem Memory.ext_of_wf {m m' : Memory} (hm : Memory.wf m = true) (hm' : Memory.wf m' = true)
    (h : ∀ a, Memory.read m a = Memory.read m' a) : m = m' := by
  have key : ∀ (m m' : Memory) (lo : Nat), Memory.wfFrom lo m = true → Memory.wfFrom lo m' = true →
      (∀ a, Memory.read m a = Memory.read m' a) → m = m' := by
    intro m
    induction m with
    | nil =>
      intro m' lo _ _ h
      cases m' with
      | nil => rfl
      | cons kv rest =>
        have := h kv.1
        simp [Memory.read, unlisted] at this
    | cons kv rest ih =>
      intro m' lo hm hm' h
      obtain ⟨k, v⟩ := kv
      cases m' with
      | nil =>
        have := h k
        simp [Memory.read, unlisted] at this
      | cons kv' rest' =>
        obtain ⟨k', v'⟩ := kv'
        simp only [Memory.wfFrom, Bool.and_eq_true, decide_eq_true_eq] at hm hm'
        have hk : k = k' := by
          rcases Nat.lt_trichotomy k k' with hlt | heq | hgt
          · have := h k
            have hne : k' ≠ k := by omega
            simp [Memory.read, hne, Memory.read_below hm'.2 (by omega : k < k' + 1)] at this
          · exact heq
          · have := h k'
            have hne : k ≠ k' := by omega
            simp [Memory.read, hne, Memory.read_below hm.2 (by omega : k' < k + 1)] at this
        subst hk
        have hv : v = v' := by
          have := h k
          simpa [Memory.read] using this
        subst hv
        have hr : rest = rest' := by
          refine ih rest' (k + 1) hm.2 hm'.2 (fun a => ?_)
          by_cases ha : k = a
          · subst ha
            rw [Memory.read_below hm.2 (by omega), Memory.read_below hm'.2 (by omega)]
          · have := h a
            simpa [Memory.read, ha] using this
        rw [hr]
  exact key m m' 0 hm hm' h

theorem frameAddr_lt (c : Channel) {i : Nat} (h : i < 10) : frameAddr c i < memSize := by
  cases c <;> simp [frameAddr, channelIndex, memSize] <;> omega

/-- The addresses of distinct bytes of the storage are distinct. -/
theorem frameAddr_inj {c d : Channel} {i j : Nat} (hi : i < 10) (hj : j < 10) :
    frameAddr c i = frameAddr d j ↔ c = d ∧ i = j := by
  cases c <;> cases d <;> simp [frameAddr, channelIndex] <;> omega

/-- `MemWrite` keeps the canonical form. -/
theorem memWrite_wf {s : State} (c : Channel) (i : Fin 10) (v : Byte) (h : Memory.wf s.mem = true) :
    Memory.wf (memWrite c i v s).mem = true := Memory.write_wf v h (frameAddr_lt c i.isLt)

/-- What a byte of storage reads as after `MemWrite`. -/
theorem read_memWrite (c : Channel) (i : Fin 10) (v : Byte) (s : State) (x : Nat) :
    Memory.read (memWrite c i v s).mem x = if x = frameAddr c i.val then some v else Memory.read s.mem x :=
  Memory.read_write _ _ _ _

theorem readBytes_zero (m : Memory) (a : Nat) : Memory.readBytes m a 0 = some [] := rfl

/-- The consecutive read succeeds exactly when every byte holds a value. -/
theorem readBytes_eq_some {m : Memory} {a n : Nat} {bs : List Byte} :
    Memory.readBytes m a n = some bs ↔ bs.length = n ∧ ∀ i, i < n → Memory.read m (a + i) = bs[i]? := by
  induction n generalizing a bs with
  | zero =>
    cases bs <;> simp [Memory.readBytes]
  | succ n ih =>
    constructor
    · intro h
      simp only [Memory.readBytes] at h
      split at h
      · rename_i b bs' hb hbs
        obtain rfl := Option.some.inj h
        obtain ⟨hl, hr⟩ := ih.1 hbs
        refine ⟨by simp [hl], fun i hi => ?_⟩
        cases i with
        | zero => simpa using hb
        | succ i =>
          have := hr i (by omega)
          simpa [Nat.add_assoc, Nat.add_comm 1 i] using this
      · exact absurd h (by simp)
    · rintro ⟨hl, hr⟩
      cases bs with
      | nil => simp at hl
      | cons b bs' =>
        have hb : Memory.read m a = some b := by simpa using hr 0 (by omega)
        have hbs : Memory.readBytes m (a + 1) n = some bs' := by
          refine ih.2 ⟨by simpa using hl, fun i hi => ?_⟩
          have := hr (i + 1) (by omega)
          simpa [Nat.add_assoc, Nat.add_comm 1 i] using this
        simp [Memory.readBytes, hb, hbs]

theorem Frame.ofList_eq_some {bs : List Byte} {f : Frame} : Frame.ofList bs = some f ↔ bs = f.toList := by
  constructor
  · intro h
    unfold Frame.ofList at h
    split at h
    · obtain rfl := Option.some.inj h
      rfl
    · exact absurd h (by simp)
  · rintro rfl
    rfl

@[simp] theorem Frame.toList_length (f : Frame) : f.toList.length = 10 := rfl

/-- The ten-byte read gives `f` exactly when every byte of the storage of the channel is that of `f`. -/
theorem readFrame_eq_some {s : State} {c : Channel} {f : Frame} :
    readFrame s c = some f ↔ ∀ i, i < 10 → Memory.read s.mem (frameAddr c i) = f.toList[i]? := by
  have haddr : ∀ i, frameAddr c 0 + i = frameAddr c i := fun i => by simp [frameAddr]
  constructor
  · intro h
    simp only [readFrame, Option.bind_eq_some_iff] at h
    obtain ⟨bs, hbs, hf⟩ := h
    obtain rfl := Frame.ofList_eq_some.1 hf
    exact fun i hi => haddr i ▸ (readBytes_eq_some.1 hbs).2 i hi
  · intro h
    simp only [readFrame, Option.bind_eq_some_iff]
    exact ⟨f.toList, readBytes_eq_some.2 ⟨rfl, fun i hi => haddr i ▸ h i hi⟩, rfl⟩

end Sys2Proof.Machine
end

