-- ==== Sys2Proof/Laws/Ops.lean ====
section
/-! SUPPORT. One lemma per shared operation that says everything it can do: compare-and-swap, the leg writes, the
work left after a step, the decoder's response, and the two buffer operations. -/

namespace Sys2Proof.Machine

/-! ## casState -/

theorem casState_eq (c : Channel) (old new : BufState) (s : State) :
    casState c old new s = if (s.buf c).state = old then (setState c new s, true) else (s, false) := rfl

/-- A compare-and-swap changes nothing but the state of one buffer. -/
theorem casState_fields (c : Channel) (old new : BufState) (s : State) :
    (casState c old new s).1.mem = s.mem ∧ (casState c old new s).1.mc = s.mc ∧ (casState c old new s).1.wd = s.wd ∧
      (casState c old new s).1.cWork = s.cWork ∧ (casState c old new s).1.pIn = s.pIn ∧
      (casState c old new s).1.cIn = s.cIn ∧ (casState c old new s).1.pOut = s.pOut ∧
      (casState c old new s).1.cOut = s.cOut ∧ (casState c old new s).1.turns = s.turns ∧
      (casState c old new s).1.freeTurns = s.freeTurns := by
  unfold casState
  split <;> simp

/-! ## Leg writes -/

@[simp] theorem putLeg_leg_same (m : MotorChannel) (side : LegSide) (v : Leg) : (m.putLeg side v).leg side = v := by
  cases side <;> rfl

@[simp] theorem applyWrite_get_same (w : LegWrite) (mc : PerChannel MotorChannel) :
    (applyWrite w mc).get w.ch = (mc.get w.ch).putLeg w.side w.value := by simp [applyWrite]

@[simp] theorem applyWrite_get_ne (w : LegWrite) (mc : PerChannel MotorChannel) {d : Channel} (h : d ≠ w.ch) :
    (applyWrite w mc).get d = mc.get d := by simp [applyWrite, h]

@[simp] theorem afterWrites_cons (w : LegWrite) (ws : List LegWrite) (clears : Bool) (s : State) :
    afterWrites (w :: ws) clears s = pushWork (.legs w ws clears) s := rfl

@[simp] theorem afterWrites_nil_true (s : State) : afterWrites [] true s = pushWork .clearCount s := rfl

@[simp] theorem afterWrites_nil_false (s : State) : afterWrites [] false s = respond .c .ok s := rfl

@[simp] theorem performWrite_eq (w : LegWrite) (rest : List LegWrite) (clears : Bool) (s : State) :
    performWrite w rest clears s = afterWrites rest clears (legWrite w s) := rfl

@[simp] theorem startWrites_cons (w : LegWrite) (ws : List LegWrite) (clears : Bool) (s : State) :
    startWrites (w :: ws) clears s = performWrite w ws clears s := rfl

/-- What is left to do after a step of an operation that writes legs (R89): one more piece of work, or the
response. -/
theorem afterWrites_cases (rest : List LegWrite) (clears : Bool) (s : State) :
    (∃ w, afterWrites rest clears s = pushWork w s ∧
      ((∃ lw ws, rest = lw :: ws ∧ w = .legs lw ws clears) ∨ (rest = [] ∧ clears = true ∧ w = .clearCount))) ∨
    (rest = [] ∧ clears = false ∧ afterWrites rest clears s = respond .c .ok s) := by
  cases rest with
  | cons lw ws => exact .inl ⟨_, rfl, .inl ⟨lw, ws, rfl, rfl⟩⟩
  | nil =>
    cases clears with
    | true => exact .inl ⟨_, rfl, .inr ⟨rfl, rfl, rfl⟩⟩
    | false => exact .inr ⟨rfl, rfl, rfl⟩

@[simp] theorem afterWrites_tb (rest : List LegWrite) (clears : Bool) (s : State) :
    (afterWrites rest clears s).tb = s.tb := by
  cases rest <;> cases clears <;> rfl

@[simp] theorem afterWrites_mem (rest : List LegWrite) (clears : Bool) (s : State) :
    (afterWrites rest clears s).mem = s.mem := by
  cases rest <;> cases clears <;> rfl

@[simp] theorem afterWrites_mc (rest : List LegWrite) (clears : Bool) (s : State) :
    (afterWrites rest clears s).mc = s.mc := by
  cases rest <;> cases clears <;> rfl

@[simp] theorem afterWrites_wd (rest : List LegWrite) (clears : Bool) (s : State) :
    (afterWrites rest clears s).wd = s.wd := by
  cases rest <;> cases clears <;> rfl

@[simp] theorem afterWrites_pIn (rest : List LegWrite) (clears : Bool) (s : State) :
    (afterWrites rest clears s).pIn = s.pIn := by
  cases rest <;> cases clears <;> rfl

@[simp] theorem afterWrites_cIn (rest : List LegWrite) (clears : Bool) (s : State) :
    (afterWrites rest clears s).cIn = s.cIn := by
  cases rest <;> cases clears <;> rfl

@[simp] theorem afterWrites_pOut (rest : List LegWrite) (clears : Bool) (s : State) :
    (afterWrites rest clears s).pOut = s.pOut := by
  cases rest <;> cases clears <;> rfl

@[simp] theorem afterWrites_turns (rest : List LegWrite) (clears : Bool) (s : State) :
    (afterWrites rest clears s).turns = s.turns := by
  cases rest <;> cases clears <;> rfl

@[simp] theorem afterWrites_freeTurns (rest : List LegWrite) (clears : Bool) (s : State) :
    (afterWrites rest clears s).freeTurns = s.freeTurns := by
  cases rest <;> cases clears <;> rfl

@[simp] theorem decodeResponse_tb (fr : Frame) (s : State) : (decodeResponse fr s).tb = s.tb := by
  unfold decodeResponse
  split <;> rfl

@[simp] theorem decodeResponse_mem (fr : Frame) (s : State) : (decodeResponse fr s).mem = s.mem := by
  unfold decodeResponse
  split <;> rfl

@[simp] theorem decodeResponse_mc (fr : Frame) (s : State) : (decodeResponse fr s).mc = s.mc := by
  unfold decodeResponse
  split <;> rfl

@[simp] theorem decodeResponse_wd (fr : Frame) (s : State) : (decodeResponse fr s).wd = s.wd := by
  unfold decodeResponse
  split <;> rfl

@[simp] theorem decodeResponse_cWork (fr : Frame) (s : State) : (decodeResponse fr s).cWork = s.cWork := by
  unfold decodeResponse
  split <;> rfl

@[simp] theorem decodeResponse_pIn (fr : Frame) (s : State) : (decodeResponse fr s).pIn = s.pIn := by
  unfold decodeResponse
  split <;> rfl

@[simp] theorem decodeResponse_cIn (fr : Frame) (s : State) : (decodeResponse fr s).cIn = s.cIn := by
  unfold decodeResponse
  split <;> rfl

@[simp] theorem decodeResponse_pOut (fr : Frame) (s : State) : (decodeResponse fr s).pOut = s.pOut := by
  unfold decodeResponse
  split <;> rfl

@[simp] theorem decodeResponse_turns (fr : Frame) (s : State) : (decodeResponse fr s).turns = s.turns := by
  unfold decodeResponse
  split <;> rfl

@[simp] theorem decodeResponse_freeTurns (fr : Frame) (s : State) : (decodeResponse fr s).freeTurns = s.freeTurns := by
  unfold decodeResponse
  split <;> rfl

/-! ## The decoder's response -/

theorem decodeResponse_of_valid {fr : Frame} (h : fr.f9 = checksum8 fr) (s : State) :
    decodeResponse fr s = respond .c (.sample (decodeFields fr)) s := by simp [decodeResponse, decodeFrame, h]

theorem decodeResponse_of_invalid {fr : Frame} (h : fr.f9 ≠ checksum8 fr) (s : State) :
    decodeResponse fr s = respond .c (.error .checksum) s := by simp [decodeResponse, decodeFrame, h]

/-- The decoder answers with a sample or with `Checksum`, and changes nothing else. -/
theorem decodeResponse_eq_respond (fr : Frame) (s : State) :
    ∃ r, decodeResponse fr s = respond .c r s ∧ ((∃ smp, r = .sample smp) ∨ r = .error .checksum) := by
  by_cases h : fr.f9 = checksum8 fr
  · exact ⟨_, decodeResponse_of_valid h s, .inl ⟨_, rfl⟩⟩
  · exact ⟨_, decodeResponse_of_invalid h s, .inr rfl⟩

/-! ## WRB -/

/-- The state after an accepted byte at index `i`. -/
theorem storeByte_buf_same {c : Channel} {i : Fin 10} {b : Byte} {s : State}
    (h : (s.buf c).state = .idle ∨ (s.buf c).state = .writing) :
    (storeByte c i b s).buf c =
      if i.val = 9 then ⟨.doneWriting, 0⟩ else ⟨.writing, BitVec.ofNat 4 (i.val + 1)⟩ := by
  unfold storeByte advance casState
  by_cases hi : i.val = 9 <;> rcases h with h | h <;> simp [hi, h]

theorem storeByte_buf_ne (c : Channel) (i : Fin 10) (b : Byte) (s : State) {d : Channel} (h : d ≠ c) :
    (storeByte c i b s).buf d = s.buf d := by
  unfold storeByte advance casState
  split <;> split <;> simp [h]

theorem storeByte_mem (c : Channel) (i : Fin 10) (b : Byte) (s : State) :
    (storeByte c i b s).mem = Memory.write s.mem (frameAddr c i.val) b := by
  unfold storeByte advance casState
  split <;> split <;> simp

@[simp] theorem storeByte_mc (c : Channel) (i : Fin 10) (b : Byte) (s : State) :
    (storeByte c i b s).mc = s.mc := by
  unfold storeByte advance casState
  split <;> split <;> simp

@[simp] theorem storeByte_wd (c : Channel) (i : Fin 10) (b : Byte) (s : State) :
    (storeByte c i b s).wd = s.wd := by
  unfold storeByte advance casState
  split <;> split <;> simp

@[simp] theorem storeByte_cWork (c : Channel) (i : Fin 10) (b : Byte) (s : State) :
    (storeByte c i b s).cWork = s.cWork := by
  unfold storeByte advance casState
  split <;> split <;> simp

@[simp] theorem storeByte_pIn (c : Channel) (i : Fin 10) (b : Byte) (s : State) :
    (storeByte c i b s).pIn = s.pIn := by
  unfold storeByte advance casState
  split <;> split <;> simp

@[simp] theorem storeByte_cIn (c : Channel) (i : Fin 10) (b : Byte) (s : State) :
    (storeByte c i b s).cIn = s.cIn := by
  unfold storeByte advance casState
  split <;> split <;> simp

@[simp] theorem storeByte_pOut (c : Channel) (i : Fin 10) (b : Byte) (s : State) :
    (storeByte c i b s).pOut = s.pOut := by
  unfold storeByte advance casState
  split <;> split <;> simp

@[simp] theorem storeByte_cOut (c : Channel) (i : Fin 10) (b : Byte) (s : State) :
    (storeByte c i b s).cOut = s.cOut := by
  unfold storeByte advance casState
  split <;> split <;> simp

@[simp] theorem storeByte_turns (c : Channel) (i : Fin 10) (b : Byte) (s : State) :
    (storeByte c i b s).turns = s.turns := by
  unfold storeByte advance casState
  split <;> split <;> simp

@[simp] theorem storeByte_freeTurns (c : Channel) (i : Fin 10) (b : Byte) (s : State) :
    (storeByte c i b s).freeTurns = s.freeTurns := by
  unfold storeByte advance casState
  split <;> split <;> simp

/-- The three ways `WRB` goes on (R101): `Overrun`, `Framing`, or the byte stored at the index it takes. -/
theorem wrbStep_next {p : Params} {c : Channel} {b : Byte} {s t : State} (h : wrbStep p c b s = .next t) :
    (((s.buf c).state = .doneWriting ∨ (s.buf c).state = .reading) ∧
      t = respond .p (.error .overrun) (setCursor c 0 s)) ∨
    (((s.buf c).state = .idle ∨ (s.buf c).state = .writing) ∧ wrbIndex (s.buf c) = 0 ∧ b ≠ p.startMarker ∧
      t = respond .p (.error .framing) (setCursor c 0 s)) ∨
    (((s.buf c).state = .idle ∨ (s.buf c).state = .writing) ∧ (wrbIndex (s.buf c) = 0 → b = p.startMarker) ∧
      ∃ hi : (wrbIndex (s.buf c)).toNat < 10,
        t = respond .p .ok (storeByte c ⟨(wrbIndex (s.buf c)).toNat, hi⟩ b s)) := by
  unfold wrbStep at h
  split at h
  · rename_i h1
    exact .inl ⟨h1, by simpa using h.symm⟩
  · rename_i h1
    have h1' : (s.buf c).state = .idle ∨ (s.buf c).state = .writing := by
      cases hs : (s.buf c).state <;> simp_all
    split at h
    · rename_i hi
      unfold acceptByte at h
      split at h
      · rename_i h2
        refine .inr (.inl ⟨h1', BitVec.eq_of_toNat_eq (by simpa using h2.1), h2.2, by simpa using h.symm⟩)
      · rename_i h2
        refine .inr (.inr ⟨h1', fun h0 => ?_, hi, by simpa using h.symm⟩)
        by_contra hb
        exact h2 ⟨by simp [h0], hb⟩
    · cases h

/-- `WRB` stops only on a cursor above 9 in `Writing` (R104). -/
theorem wrbStep_total {p : Params} {c : Channel} {b : Byte} {s : State}
    (h : ¬ ((s.buf c).state = .writing ∧ 10 ≤ (s.buf c).cursor.toNat)) : ∃ t, wrbStep p c b s = .next t := by
  unfold wrbStep
  split
  · exact ⟨_, rfl⟩
  · rename_i h1
    have : (wrbIndex (s.buf c)).toNat < 10 := by
      unfold wrbIndex
      split
      · simp
      · rename_i h2
        have : (s.buf c).state = .writing := by cases hs : (s.buf c).state <;> simp_all
        by_contra h3
        exact h ⟨this, by omega⟩
    simp only [this, dif_pos]
    exact ⟨_, rfl⟩

/-! ## TRS -/

theorem acquire_doneWriting {c : Channel} {s : State} (h : (s.buf c).state = .doneWriting) :
    acquire c s = pushWork (.release c) (setState c .reading s) := by simp [acquire, casState, h]

theorem acquire_none {c : Channel} {s : State} (h : (s.buf c).state = .idle ∨ (s.buf c).state = .writing) :
    acquire c s = respond .c .noSample s := by rcases h with h | h <;> simp [acquire, h]

theorem acquire_reading {c : Channel} {s : State} (h : (s.buf c).state = .reading) :
    acquire c s = respond .c (.error .reentrant) (setState c .idle s) := by simp [acquire, h]

/-- The acquire step answers, or takes the frame (R106). -/
theorem acquire_cases (c : Channel) (s : State) :
    ((s.buf c).state = .doneWriting ∧ acquire c s = pushWork (.release c) (setState c .reading s)) ∨
    (((s.buf c).state = .idle ∨ (s.buf c).state = .writing) ∧ acquire c s = respond .c .noSample s) ∨
    ((s.buf c).state = .reading ∧ acquire c s = respond .c (.error .reentrant) (setState c .idle s)) := by
  cases h : (s.buf c).state with
  | idle => exact .inr (.inl ⟨.inl rfl, acquire_none (.inl h)⟩)
  | writing => exact .inr (.inl ⟨.inr rfl, acquire_none (.inr h)⟩)
  | doneWriting => exact .inl ⟨rfl, acquire_doneWriting h⟩
  | reading => exact .inr (.inr ⟨rfl, acquire_reading h⟩)

/-- When the release step goes on (R107), and to what. -/
theorem release_next {c : Channel} {s t : State} :
    release c s = .next t ↔
      (s.buf c).state = .reading ∧ ∃ f, readFrame s c = some f ∧ t = decodeResponse f (setState c .idle s) := by
  unfold release
  constructor
  · intro h
    split at h
    · rename_i h1
      split at h
      · rename_i f hf
        exact ⟨h1, f, hf, by simpa using h.symm⟩
      · cases h
    · cases h
  · rintro ⟨h1, f, hf, rfl⟩
    simp [h1, hf]

/-! ## SET, FSAFE, CMD -/

/-- `SET` is two leg writes on its own channel (R152). -/
theorem setWrites_eq (c : Channel) (v : Half) :
    (sint v = 0 ∧ setWrites c v = [⟨c, .a, .ground⟩, ⟨c, .b, .ground⟩]) ∨
    (0 < sint v ∧ setWrites c v = [⟨c, .b, .ground⟩, ⟨c, .a, .pwm (duty (sint v))⟩]) ∨
    (sint v < 0 ∧ setWrites c v = [⟨c, .a, .ground⟩, ⟨c, .b, .pwm (duty (sint v))⟩]) := by
  unfold setWrites
  split
  · exact .inl ⟨‹_›, rfl⟩
  · split
    · exact .inr (.inl ⟨‹_›, rfl⟩)
    · exact .inr (.inr ⟨by omega, rfl⟩)

/-- `SET` is two leg writes. -/
theorem setWrites_two (c : Channel) (v : Half) : ∃ w1 w2, setWrites c v = [w1, w2] := by
  rcases setWrites_eq c v with ⟨_, h⟩ | ⟨_, h⟩ | ⟨_, h⟩ <;> exact ⟨_, _, h⟩

/-- The duty of a non-zero command is its absolute value, in 1..32768 (R153). -/
theorem duty_toNat {v : Half} : (duty (sint v)).toNat = (sint v).natAbs ∧ (sint v).natAbs ≤ 32768 := by
  have h1 := BitVec.toInt_lt (x := v)
  have h2 := BitVec.le_toInt (x := v)
  unfold duty sint
  simp only [BitVec.toNat_ofNat]
  omega

/-- A `CMD` is accepted exactly when its payload is six bytes long (R175). -/
theorem execCmd_cases (p : List Byte) (s : State) :
    (∃ p0 p1 p2 p3 p4 p5, p = [p0, p1, p2, p3, p4, p5] ∧
      execCmd p s = .next (startWrites (commandWrites (half p0 p1) (half p2 p3) (half p4 p5)) true s)) ∨
    (p.length ≠ 6 ∧ execCmd p s = .next (respond .c (.refused .length) s)) := by
  unfold execCmd
  split
  · exact .inl ⟨_, _, _, _, _, _, rfl, rfl⟩
  · rename_i h
    refine .inr ⟨fun hl => ?_, rfl⟩
    match p, hl with
    | [p0, p1, p2, p3, p4, p5], _ => exact h _ _ _ _ _ _ rfl

end Sys2Proof.Machine
end

