-- ==== Sys2Proof/Laws/Decode.lean ====
section
/-! SUPPORT. The laws of the request encoding (spec/30_encoding.md R81 to R85, R87): the header's fields, the operands
of each format, and the big-endian patterns and their bytes. -/

namespace Sys2Proof

open Machine

/-! ## Big-endian patterns and their bytes -/

theorem half_getLsbD (a b : Byte) (i : Nat) :
    (half a b).getLsbD i = if i < 8 then b.getLsbD i else a.getLsbD (i - 8) :=
  (BitVec.getLsbD_append (x := a) (y := b) (i := i)).trans (by cases h : decide (i < 8) <;> simp_all)

theorem word_getLsbD (a b c d : Byte) (i : Nat) :
    (word a b c d).getLsbD i = if i < 16 then (half c d).getLsbD i else (half a b).getLsbD (i - 16) :=
  (BitVec.getLsbD_append (x := half a b) (y := half c d) (i := i)).trans
    (by cases h : decide (i < 16) <;> simp_all)

theorem half_of_bytes (v : Half) : half (v.extractLsb' 8 8) (v.extractLsb' 0 8) = v := by
  apply BitVec.eq_of_getLsbD_eq
  intro i hi
  rw [half_getLsbD]
  by_cases h : i < 8
  · simp [h]
  · have h1 : i - 8 < 8 := by omega
    have h2 : 8 + (i - 8) = i := by omega
    simp only [h, if_false, BitVec.getLsbD_extractLsb', h1, decide_true, Bool.true_and, h2]

theorem half_hi (a b : Byte) : (half a b).extractLsb' 8 8 = a := by
  apply BitVec.eq_of_getLsbD_eq
  intro i hi
  simp [half_getLsbD, hi]

theorem half_lo (a b : Byte) : (half a b).extractLsb' 0 8 = b := by
  apply BitVec.eq_of_getLsbD_eq
  intro i hi
  simp [half_getLsbD, hi]

theorem halfBytes_half (a b : Byte) : halfBytes (half a b) = [a, b] := by simp [halfBytes, half_hi, half_lo]

theorem wordBytes_word (a b c d : Byte) : wordBytes (word a b c d) = [a, b, c, d] := by
  have h : ∀ k i, i < 8 → ((word a b c d).extractLsb' k 8).getLsbD i = (word a b c d).getLsbD (k + i) := by
    intro k i hi
    simp [hi]
  unfold wordBytes
  refine List.cons_eq_cons.2 ⟨?_, List.cons_eq_cons.2 ⟨?_, List.cons_eq_cons.2 ⟨?_, List.cons_eq_cons.2 ⟨?_, rfl⟩⟩⟩⟩ <;>
  · apply BitVec.eq_of_getLsbD_eq
    intro i hi
    rw [h _ _ hi, word_getLsbD, half_getLsbD, half_getLsbD]
    split <;> (try split) <;> first | omega | (congr 1; omega)

theorem word_of_bytes (v : Word) :
    word (v.extractLsb' 24 8) (v.extractLsb' 16 8) (v.extractLsb' 8 8) (v.extractLsb' 0 8) = v := by
  have h : ∀ k i, i < 8 → (v.extractLsb' k 8).getLsbD i = v.getLsbD (k + i) := by
    intro k i hi
    simp [hi]
  apply BitVec.eq_of_getLsbD_eq
  intro i hi
  rw [word_getLsbD, half_getLsbD, half_getLsbD]
  split <;> split <;> (rw [h _ _ (by omega)]; congr 1; omega)

/-! ## The header -/

theorem headerOp_header (op : Opcode) (ch : BitVec 2) : headerOp (header op ch) = op.code := by
  cases op <;> revert ch <;> decide

theorem headerCh_header (op : Opcode) (ch : BitVec 2) : headerCh (header op ch) = ch := by
  cases op <;> revert ch <;> decide

theorem headerRsv_header (op : Opcode) (ch : BitVec 2) : headerRsv (header op ch) = 0 := by
  cases op <;> revert ch <;> decide

/-- A header is determined by its operation and its channel field when its reserved bits are 0 (R81). -/
theorem header_of_fields (h : Byte) (op : Opcode) :
    op.code = headerOp h → headerRsv h = 0 → header op (headerCh h) = h := by
  revert h
  cases op <;> decide

theorem opcodeOf_code (op : Opcode) : opcodeOf op.code = some op := by cases op <;> decide

theorem opcodeOf_eq_some {c : BitVec 4} {op : Opcode} : opcodeOf c = some op → op.code = c := by
  revert c
  cases op <;> decide

theorem channelFor_bits (op : Opcode) (h : op.hasChannel = true) (c : Channel) : channelFor op c.bits = some c := by
  cases op <;> cases c <;> first | rfl | exact absurd h (by decide)

theorem channelFor_zero (op : Opcode) (h : op.hasChannel = false) : channelFor op 0 = some .ch0 := by
  simp [channelFor, h]

theorem channelFor_eq_some {op : Opcode} {ch : BitVec 2} {c : Channel} :
    channelFor op ch = some c → (op.hasChannel = true → c.bits = ch) ∧ (op.hasChannel = false → ch = 0) := by
  revert ch
  cases op <;> cases c <;> decide

/-! ## The decoder -/

/-- A request with a good header decodes as its operands do. -/
theorem decode_header {op : Opcode} {ch : BitVec 2} {c : Channel} (bs : List Byte) (h : channelFor op ch = some c) :
    decode op.port (header op ch :: bs) = decodeOperands op c bs := by
  simp [decode, headerOp_header, headerCh_header, headerRsv_header, opcodeOf_code, h]

/-- What decoding the operands can give: an operation of the row `op`, whose encoding is the header and exactly
these operands (R83). -/
theorem decodeOperands_ok {op : Opcode} {c : Channel} {bs : List Byte} {i : Instr}
    (h : decodeOperands op c bs = .ok i) : i.port = op.port ∧ i.wellFormed = true ∧
      ∀ ch, (op.hasChannel = true → c.bits = ch) → (op.hasChannel = false → ch = 0) →
        encode i = header op ch :: bs := by
  cases op <;> simp only [decodeOperands] at h
  case wrb => split at h <;> cases h; exact ⟨rfl, rfl, fun ch h1 _ => by rw [← h1 rfl]; rfl⟩
  case trs => split at h <;> cases h; exact ⟨rfl, rfl, fun ch h1 _ => by rw [← h1 rfl]; rfl⟩
  case dec =>
    split at h <;> cases h
    rename_i f hf
    exact ⟨rfl, rfl, fun ch _ h2 => by rw [h2 rfl, Frame.ofList_eq_some.1 hf]; rfl⟩
  case set =>
    split at h <;> cases h
    rename_i hi lo
    refine ⟨rfl, rfl, fun ch h1 _ => ?_⟩
    rw [← h1 rfl]
    exact congrArg (header .set c.bits :: ·) (halfBytes_half hi lo)
  case fsafe => split at h <;> cases h; exact ⟨rfl, rfl, fun ch _ h2 => by rw [h2 rfl]; rfl⟩
  case tick => split at h <;> cases h; exact ⟨rfl, rfl, fun ch _ h2 => by rw [h2 rfl]; rfl⟩
  case cmd =>
    split at h
    · split at h <;> cases h
      rename_i n p hp
      refine ⟨rfl, ?_, fun ch _ h2 => ?_⟩
      · simp only [Instr.wellFormed, decide_eq_true_eq]
        omega
      · rw [h2 rfl]
        simp [encode, hp]
    · cases h

/-- A request that decodes passed every check of R85. -/
theorem decode_ok {a : Agent} {h : Byte} {bs : List Byte} {i : Instr} (hd : decode a (h :: bs) = .ok i) :
    ∃ op c, opcodeOf (headerOp h) = some op ∧ op.port = a ∧ headerRsv h = 0 ∧
      channelFor op (headerCh h) = some c ∧ decodeOperands op c bs = .ok i := by
  simp only [decode] at hd
  split at hd
  · cases hd
  · rename_i op hop
    split at hd
    · cases hd
    · rename_i hport
      split at hd
      · cases hd
      · rename_i hrsv
        split at hd
        · cases hd
        · rename_i c hc
          exact ⟨op, c, hop, by simpa using hport, by simpa using hrsv, hc, hd⟩

/-- An operation decodes on its own port only (R79). -/
theorem decode_port {a : Agent} {bs : List Byte} {i : Instr} (hd : decode a bs = .ok i) : i.port = a := by
  cases bs with
  | nil => cases hd
  | cons h rest =>
    obtain ⟨op, c, _, hp, _, _, ho⟩ := decode_ok hd
    rw [(decodeOperands_ok ho).1, hp]

end Sys2Proof
end

