-- ==== Sys2Proof/Laws/PerInstr.lean ====
section
/-! SUPPORT. A statement of every instruction as syntax: the decoder finds the length of its request from the header
and, for `CMD`, byte 1 (spec/30_encoding.md R82, R84). -/

namespace Sys2Proof.Laws.EncodeLength

/-- R82, R84: the length of the encoding of a well-formed instruction is the one its first two bytes announce. -/
def Statement (i : Instr) : Prop :=
  i.wellFormed = true → requestLength ((encode i).headD 0) ((encode i).tail.headD 0) = some (encode i).length

theorem wrb (c : Channel) (b : Byte) : Statement (.wrb c b) := fun _ => by
  simp [requestLength, encode, headerOp_header, opcodeOf_code]

theorem trs (c : Channel) : Statement (.trs c) := fun _ => by
  simp [requestLength, encode, headerOp_header, opcodeOf_code]

theorem dec (f : Frame) : Statement (.dec f) := fun _ => by
  simp [requestLength, encode, headerOp_header, opcodeOf_code]

theorem set (c : Channel) (v : Half) : Statement (.set c v) := fun _ => by
  simp [requestLength, encode, headerOp_header, opcodeOf_code]

theorem fsafe : Statement .fsafe := fun _ => by
  simp [requestLength, encode, headerOp_header, opcodeOf_code]

theorem tick : Statement .tick := fun _ => by
  simp [requestLength, encode, headerOp_header, opcodeOf_code]

theorem cmd (p : List Byte) : Statement (.cmd p) := fun h => by
  have hp : p.length ≤ 255 := by simpa [Instr.wellFormed] using h
  simp [requestLength, encode, headerOp_header, opcodeOf_code]
  omega

end Sys2Proof.Laws.EncodeLength
end

