-- ==== Sys2Proof/Laws/Step.lean ====
section
/-! SUPPORT. What a step can do, said once: a step of each agent, the next step of an operation in progress, and a
turn of the machine, each as the list of its cases. -/

namespace Sys2Proof.Machine

/-! ## Outcomes -/

theorem andThen_next {o : Host.Outcome State Fault Refusal} {f : State → Host.Outcome State Fault Refusal} {t : State} :
    andThen o f = .next t ↔ ∃ s, o = .next s ∧ f s = .next t := by
  cases o <;> simp [andThen]

@[simp] theorem andThen_of_next (s : State) (f : State → Host.Outcome State Fault Refusal) :
    andThen (.next s) f = f s := rfl

/-! ## Operations of agent C -/

/-- The first step of an operation of agent C (R58): an acquire step, a decode, the first of some leg writes, a count
step, or the refusal of a `CMD` for its length. It always goes on. -/
theorem exec_c_cases {i : Instr} (hi : i.port = .c) (s : State) :
    (∃ c, i = .trs c ∧ exec i s = .next (acquire c s)) ∨
    (∃ f, i = .dec f ∧ exec i s = .next (decodeResponse f s)) ∨
    (∃ w ws clears, (clears = true → ∃ p : List Byte, i = .cmd p ∧ p.length = 6) ∧ ws.length ≤ 5 ∧ i ≠ .tick ∧
      exec i s = .next (performWrite w ws clears s)) ∨
    (i = .tick ∧ exec i s = .next (tickStep Config.params s)) ∨
    (∃ p : List Byte, i = .cmd p ∧ p.length ≠ 6 ∧ exec i s = .next (respond .c (.refused .length) s)) := by
  cases i with
  | wrb c b => cases hi
  | trs c => exact .inl ⟨c, rfl, rfl⟩
  | dec f => exact .inr (.inl ⟨f, rfl, rfl⟩)
  | set c v =>
    refine .inr (.inr (.inl ?_))
    obtain ⟨w1, w2, h⟩ := setWrites_two c v
    refine ⟨w1, [w2], false, nofun, by simp, nofun, ?_⟩
    simp only [exec, execSet, h, startWrites_cons]
  | fsafe => exact .inr (.inr (.inl ⟨⟨.ch0, .a, .ground⟩, failSafeWrites.tail, false, nofun, Nat.le_refl 5, nofun, rfl⟩))
  | tick => exact .inr (.inr (.inr (.inl ⟨rfl, rfl⟩)))
  | cmd p =>
    rcases execCmd_cases p s with ⟨p0, p1, p2, p3, p4, p5, hp, h⟩ | ⟨hp, h⟩
    · refine .inr (.inr (.inl ?_))
      obtain ⟨w1, w2, h0⟩ := setWrites_two .ch0 (half p0 p1)
      obtain ⟨w3, w4, h1⟩ := setWrites_two .ch1 (half p2 p3)
      obtain ⟨w5, w6, h2⟩ := setWrites_two .ch2 (half p4 p5)
      refine ⟨w1, [w2, w3, w4, w5, w6], true, fun _ => ⟨p, rfl, by simp [hp]⟩, by simp, nofun, ?_⟩
      simp only [exec, h, commandWrites, h0, h1, h2, List.cons_append, List.nil_append, startWrites_cons]
    · exact .inr (.inr (.inr (.inr ⟨p, rfl, hp, h⟩)))

/-- An operation of agent C never stops at its first step. -/
theorem exec_c_total {i : Instr} (hi : i.port = .c) (s : State) : ∃ t, exec i s = .next t := by
  rcases exec_c_cases hi s with ⟨_, _, h⟩ | ⟨_, _, h⟩ | ⟨_, _, _, _, _, _, h⟩ | ⟨_, h⟩ | ⟨_, _, _, h⟩ <;>
    exact ⟨_, h⟩

/-- The only operation of agent P is `WRB` (R82). -/
theorem port_p {i : Instr} (hi : i.port = .p) : ∃ c b, i = .wrb c b := by
  cases i <;> first | exact ⟨_, _, rfl⟩ | cases hi

/-! ## Steps of the agents -/

/-- What a step of agent P can do: nothing, a refusal, or a `WRB`. -/
theorem pStep_next {s t : State} (h : pStep s = .next t) :
    (s.pIn = [] ∧ t = s) ∨
    ∃ bs rest, s.pIn = bs :: rest ∧
      ((∃ r, decode .p bs = .error r ∧ t = respond .p (.refused r) { s with pIn := rest }) ∨
       (∃ c b, decode .p bs = .ok (.wrb c b) ∧ wrbStep Config.params c b { s with pIn := rest } = .next t)) := by
  unfold pStep at h
  split at h
  · rename_i hp
    exact .inl ⟨hp, by simpa using h.symm⟩
  · rename_i bs rest hp
    refine .inr ⟨bs, rest, hp, ?_⟩
    unfold serve at h
    split at h
    · rename_i i hd
      obtain ⟨c, b, rfl⟩ := port_p (decode_port hd)
      exact .inr ⟨c, b, hd, h⟩
    · rename_i r hd
      exact .inl ⟨r, hd, by simpa using h.symm⟩

/-- What a step of agent C can do: nothing, the next step of the operation in progress, a refusal, or the first step
of an operation. -/
theorem cStep_next {s t : State} (h : cStep s = .next t) :
    (s.cWork = [] ∧ s.cIn = [] ∧ t = s) ∨
    (∃ w ws, s.cWork = w :: ws ∧ continueWork w { s with cWork := ws } = .next t) ∨
    (∃ bs rest, s.cWork = [] ∧ s.cIn = bs :: rest ∧
      ((∃ r, decode .c bs = .error r ∧ t = respond .c (.refused r) { s with cIn := rest }) ∨
       (∃ i, decode .c bs = .ok i ∧ i.port = .c ∧ exec i { s with cIn := rest } = .next t))) := by
  unfold cStep at h
  split at h
  · rename_i w ws hw
    exact .inr (.inl ⟨w, ws, hw, h⟩)
  · rename_i hw
    split at h
    · rename_i hc
      exact .inl ⟨hw, hc, by simpa using h.symm⟩
    · rename_i bs rest hc
      refine .inr (.inr ⟨bs, rest, hw, hc, ?_⟩)
      unfold serve at h
      split at h
      · rename_i i hd
        exact .inr ⟨i, hd, decode_port hd, h⟩
      · rename_i r hd
        exact .inl ⟨r, hd, by simpa using h.symm⟩

/-- What the next step of an operation in progress can do (R58). -/
theorem continueWork_next {w : Work} {s t : State} (h : continueWork w s = .next t) :
    (∃ c f, w = .release c ∧ (s.buf c).state = .reading ∧ readFrame s c = some f ∧
      t = decodeResponse f (setState c .idle s)) ∨
    (∃ lw rest clears, w = .legs lw rest clears ∧ t = afterWrites rest clears (legWrite lw s)) ∨
    (w = .clearCount ∧ t = respond .c .ok (setCount 0 s)) := by
  cases w with
  | release c =>
    obtain ⟨hr, f, hf, ht⟩ := release_next.1 h
    exact .inl ⟨c, f, rfl, hr, hf, ht⟩
  | legs lw rest clears => exact .inr (.inl ⟨lw, rest, clears, rfl, by simpa [continueWork] using h.symm⟩)
  | clearCount => exact .inr (.inr ⟨rfl, by simpa [continueWork, clearStep] using h.symm⟩)

/-! ## A step of the machine -/

/-- What a step of the machine can do: with some turns used up, a step of agent P, a step of agent C, the reset input,
or nothing. -/
theorem step_next {s t : State} (h : step s = .next t) :
    ∃ turns n, (pStep { s with turns := turns, freeTurns := n } = .next t ∨
      cStep { s with turns := turns, freeTurns := n } = .next t ∨
      (∃ dropP dropC rest, s.turns = .rst dropP dropC :: rest ∧
        t = resetStep dropP dropC { s with turns := turns, freeTurns := n }) ∨
      t = { s with turns := turns, freeTurns := n }) := by
  unfold step at h
  split at h
  · rename_i tn rest htn
    cases tn with
    | p => exact ⟨rest, s.freeTurns, .inl h⟩
    | c => exact ⟨rest, s.freeTurns, .inr (.inl h)⟩
    | rst dropP dropC =>
      exact ⟨rest, s.freeTurns, .inr (.inr (.inl ⟨dropP, dropC, rest, htn, by simpa [takeTurn] using h.symm⟩))⟩
  · unfold freeStep at h
    split at h
    · split at h
      · exact ⟨s.turns, s.freeTurns + 1, .inl h⟩
      · exact ⟨s.turns, s.freeTurns + 1, .inr (.inl h)⟩
    · exact ⟨s.turns, s.freeTurns, .inl h⟩
    · exact ⟨s.turns, s.freeTurns, .inr (.inl h)⟩
    · exact ⟨s.turns, s.freeTurns, .inr (.inr (.inr (by simpa using h.symm)))⟩

/-- A property of states that does not look at the turns, that a step of each agent keeps and that the reset input
establishes, is kept by every step. -/
theorem step_keeps {I : State → Prop} (hturns : ∀ (s : State) turns n, I s → I { s with turns := turns, freeTurns := n })
    (hp : ∀ s t, I s → pStep s = .next t → I t) (hc : ∀ s t, I s → cStep s = .next t → I t)
    (hr : ∀ s dropP dropC, I s → I (resetStep dropP dropC s)) {s t : State} (hs : I s) (h : step s = .next t) : I t := by
  obtain ⟨turns, n, h | h | ⟨dropP, dropC, _, _, rfl⟩ | rfl⟩ := step_next h
  · exact hp _ _ (hturns s turns n hs) h
  · exact hc _ _ (hturns s turns n hs) h
  · exact hr _ _ _ (hturns s turns n hs)
  · exact hturns s turns n hs

/-- When neither agent's step stops, no step of the machine does. -/
theorem step_total {s : State} (hp : ∀ turns n, ∃ t, pStep { s with turns := turns, freeTurns := n } = .next t)
    (hc : ∀ turns n, ∃ t, cStep { s with turns := turns, freeTurns := n } = .next t) : ∃ t, step s = .next t := by
  unfold step
  split
  · rename_i tn rest _
    cases tn with
    | p => exact hp rest s.freeTurns
    | c => exact hc rest s.freeTurns
    | rst dropP dropC => exact ⟨_, rfl⟩
  · unfold freeStep
    split
    · split
      · exact hp s.turns (s.freeTurns + 1)
      · exact hc s.turns (s.freeTurns + 1)
    · exact hp s.turns s.freeTurns
    · exact hc s.turns s.freeTurns
    · exact ⟨_, rfl⟩

end Sys2Proof.Machine
end

