-- ==== Sys2Proof/Tests/Slice0.lean ====
section
/-! SUPPORT. Tests: the checks of WellFormed, requests written out bit by bit, the spec's vectors
(spec/95_test_vectors.md), and, for every statement with hypotheses, a state and operands that meet them. -/

namespace Sys2Proof.Tests

open Machine

/-! ## Small states -/

/-- Frame storage of channel 0 holding the bytes `bs` from index 0 on. -/
def storage (bs : List Byte) : Memory := (List.range bs.length).zip bs

/-- The reset state with the buffer of channel 0 at `st`, cursor `k`, its storage holding `bs`. -/
def withBuf (st : BufState) (k : BitVec 4) (bs : List Byte) : State :=
  { State.reset with tb := { State.reset.tb with ch0 := ⟨st, k⟩ }, mem := storage bs }

/-- The reset state with the legs `a` and `b` on channel 0. -/
def withLegs (a b : Leg) : State := { State.reset with mc := { State.reset.mc with ch0 := ⟨a, b⟩ } }

/-- The reset state with the watchdog at `n`. -/
def withCount (n : Nat) : State := { State.reset with wd := n }

/-- The frame of vector V1. -/
def v1 : Frame := ⟨0x5A, 0x32, 0, 0, 0x01, 0x68, 0, 0x5A, 0, 0xA4⟩

/-- The frame of vector V11: V1 with its checksum byte off by one. -/
def v11 : Frame := { v1 with f9 := 0xA5 }

/-- What an outcome shows of channel 0's buffer and the two response ports, as bytes. -/
def seen (o : Host.Outcome State Fault Refusal) : Option (TelemetryBuffer × List (List Byte) × List (List Byte)) :=
  match o with
  | .next s => some (s.buf .ch0, s.pPort, s.cPort)
  | .fault _ => none
  | .refused _ => none

/-- What an outcome shows of the legs, the watchdog and the C response port. -/
def seenC (o : Host.Outcome State Fault Refusal) : Option (PerChannel MotorChannel × Nat × List (List Byte)) :=
  match o with
  | .next s => some (s.mc, s.wd, s.cPort)
  | .fault _ => none
  | .refused _ => none

/-! ## WellFormed -/

/-- The one check: a payload of 256 bytes has no length byte; one of 255 has. -/
theorem test_wellFormed_refuses_long_command :
    (Instr.cmd (List.replicate 256 0)).wellFormed = false ∧ (Instr.cmd (List.replicate 255 0)).wellFormed = true := by
  simp only [Instr.wellFormed, List.length_replicate]
  decide

/-! ## Requests, bit by bit from R83 -/

/-- The second request is that of vector B1. -/
theorem test_decode_wrb :
    decode .p [0b00010100, 0b10100101] = .ok (.wrb .ch1 0xA5) ∧
    decode .p [0b00010000, 0b01011010] = .ok (.wrb .ch0 0x5A) := by decide

theorem test_decode_trs : decode .c [0b00101000] = .ok (.trs .ch2) := by decide

theorem test_decode_dec :
    decode .c [0b00110000, 1, 2, 3, 4, 5, 6, 7, 8, 9, 10] = .ok (.dec ⟨1, 2, 3, 4, 5, 6, 7, 8, 9, 10⟩) := by decide

theorem test_decode_set : decode .c [0b01000000, 0b10000000, 0b00000001] = .ok (.set .ch0 0x8001) := by decide

theorem test_decode_fsafe : decode .c [0b01010000] = .ok .fsafe := by decide

theorem test_decode_tick : decode .c [0b01100000] = .ok .tick := by decide

theorem test_decode_cmd : decode .c [0b01110000, 0b00000010, 0xAB, 0xCD] = .ok (.cmd [0xAB, 0xCD]) := by decide

/-- Vectors E1 to E6: opcode and port. -/
theorem test_refusals_opcode_port :
    decode .c [0x00] = .error .illegalOpcode ∧ decode .p [0x80, 0x00] = .error .illegalOpcode ∧
    decode .c [0xF3] = .error .illegalOpcode ∧ decode .c [0x10, 0x5A] = .error .wrongPort ∧
    decode .p [0x20] = .error .wrongPort ∧ decode .p [0x60] = .error .wrongPort := by decide

/-- Vectors E7 to E13 and E20: reserved bits and channel. -/
theorem test_refusals_reserved_channel :
    decode .p [0x11, 0x5A] = .error .reservedBits ∧ decode .c [0x22] = .error .reservedBits ∧
    decode .p [0x1C, 0x5A] = .error .channelField ∧ decode .c [0x2C] = .error .channelField ∧
    decode .c [0x64] = .error .channelField ∧ decode .c [0x54] = .error .channelField ∧
    decode .c [0x2F] = .error .reservedBits ∧ decode .c [0x21, 0x00] = .error .reservedBits := by decide

/-- Vectors E14 to E18: length. -/
theorem test_refusals_length :
    decode .p [0x10] = .error .length ∧ decode .p [0x10, 0x5A, 0x5A] = .error .length ∧
    decode .c [0x40, 0x03] = .error .length ∧
    decode .c [0x30, 0x5A, 0x32, 0, 0, 0x01, 0x68, 0, 0x5A, 0] = .error .length ∧
    decode .c [0x70, 0x06, 0, 0, 0] = .error .length := by decide

/-- The same requests as numbers, byte 0 least significant. -/
theorem test_table_words :
    decodeTableWord 16 0x5A18 = some (.wrb .ch2 0x5A) ∧ decodeTableWord 8 0x24 = some (.trs .ch1) ∧
    decodeTableWord 24 0x30F844 = some (.set .ch1 0xF830) ∧ decodeTableWord 8 0x50 = some .fsafe ∧
    decodeTableWord 8 0x60 = some .tick ∧
    decodeTableWord 88 0xA4005A0068010000325A30 = some (.dec v1) ∧
    decodeTableWord 16 0x0670 = some (.cmd [0, 0, 0, 0, 0, 0]) ∧ decodeTableWord 8 0x2C = none ∧
    decodeTableWord 8 0x80 = none := by decide

/-- A placed word is the one the next step runs. -/
theorem test_placed_word_runs :
    step (State.reset.withFetchWord 8 0x50) = exec .fsafe State.reset := rfl

/-! ## Vectors of the operations -/

/-- Vectors B1, B5, B7. -/
theorem test_wrb_stores :
    seen (wrbStep Params.test .ch0 0x5A State.reset) = some (⟨.writing, 1⟩, [[0x00]], []) ∧
    seen (wrbStep Params.test .ch0 0xC3 (withBuf .writing 5 [])) = some (⟨.writing, 6⟩, [[0x00]], []) ∧
    seen (wrbStep Params.test .ch0 0x12 (withBuf .writing 9 [])) = some (⟨.doneWriting, 0⟩, [[0x00]], []) := by
  refine ⟨?_, ?_, ?_⟩ <;> decide

/-- Vectors B2, B9, B10, B18, B19. -/
theorem test_wrb_errors :
    seen (wrbStep Params.test .ch0 0x00 State.reset) = some (⟨.idle, 0⟩, [[0xE1]], []) ∧
    seen (wrbStep Params.test .ch0 0x00 (withBuf .doneWriting 0 [])) = some (⟨.doneWriting, 0⟩, [[0xE2]], []) ∧
    seen (wrbStep Params.test .ch0 0x5A (withBuf .reading 0 [])) = some (⟨.reading, 0⟩, [[0xE2]], []) ∧
    seen (wrbStep Params.test .ch0 0x01 (withBuf .writing 0 [])) = some (⟨.writing, 0⟩, [[0xE1]], []) ∧
    wrbStep Params.test .ch0 0x01 (withBuf .writing 12 []) = .fault .badCursor := by
  refine ⟨?_, ?_, ?_, ?_, rfl⟩ <;> decide

/-- Vectors B14, B15: both steps of a `TRS`. -/
theorem test_trs_reads :
    seen (runOp (.trs .ch0) (withBuf .doneWriting 0 v1.toList)) =
      some (⟨.idle, 0⟩, [], [[0x20, 0x32, 0, 0, 0x01, 0x68, 0, 0x5A]]) ∧
    seen (runOp (.trs .ch0) (withBuf .doneWriting 0 v11.toList)) = some (⟨.idle, 0⟩, [], [[0xE3]]) := by decide

/-- Vectors B13, B16. -/
theorem test_trs_without_frame :
    seen (exec (.trs .ch0) (withBuf .writing 4 [])) = some (⟨.writing, 4⟩, [], [[0x10]]) ∧
    seen (exec (.trs .ch0) (withBuf .reading 0 [])) = some (⟨.idle, 0⟩, [], [[0xE4]]) := by decide

/-- Vectors V2, V8. -/
theorem test_dec_valid :
    decodeFrame ⟨0x5A, 0x9C, 0xFF, 0xFF, 0xFF, 0xFF, 0xFF, 0xFE, 0x00, 0x38⟩ = some ⟨-100, -1, -2⟩ ∧
    decodeFrame ⟨0x5A, 0x01, 0x01, 0x02, 0x03, 0x04, 0x05, 0x06, 0x00, 0xA3⟩ = some ⟨1, 16909060, 1286⟩ ∧
    encodeFrame Params.test ⟨-125, -2147483648, -32768⟩ =
      ⟨0x5A, 0x83, 0x80, 0, 0, 0, 0x80, 0, 0, 0x26⟩ := by decide

/-- Vectors V14, V15. -/
theorem test_dec_marker_not_tested :
    seen (exec (.dec ⟨0, 0, 0, 0, 0, 0, 0, 0, 0, 0⟩) State.reset) = some (⟨.idle, 0⟩, [], [[0xE3]]) ∧
    seen (exec (.dec ⟨0, 0, 0, 0, 0, 0, 0, 0, 0, 0xFF⟩) State.reset) =
      some (⟨.idle, 0⟩, [], [[0x20, 0, 0, 0, 0, 0, 0, 0]]) := by decide

/-- Vector A4: its intermediate state and its end. -/
theorem test_set_reverses :
    (seenC (exec (.set .ch0 0xFC18) (withLegs (.pwm 1000) .ground))).map (·.1.ch0) = some ⟨.ground, .ground⟩ ∧
    (seenC (runOp (.set .ch0 0xFC18) (withLegs (.pwm 1000) .ground))).map (·.1.ch0) =
      some ⟨.ground, .pwm 1000⟩ := by decide

/-- Vectors A8, A9. -/
theorem test_set_extremes :
    (seenC (runOp (.set .ch2 0x8000) State.reset)).map (·.1.ch2) = some ⟨.ground, .pwm 32768⟩ ∧
    (seenC (exec (.set .ch0 0x01F4) (withLegs (.pwm 1000) .ground))).map (·.1.ch0) = some ⟨.pwm 1000, .ground⟩ := by
  decide

/-- Vector A11. -/
theorem test_fsafe_grounds_all :
    seenC (runOp .fsafe { State.reset with mc := ⟨⟨.pwm 1000, .ground⟩, ⟨.ground, .ground⟩, ⟨.ground, .pwm 5⟩⟩ }) =
      some (allGround, 0, [[0x00]]) := by decide

/-- Vectors W2, W3: below the threshold the tick ends, at it the leg writes follow. -/
theorem test_tick_threshold :
    (tickStep Params.test (withCount 1)).wd = 2 ∧ (tickStep Params.test (withCount 1)).cWork = [] ∧
    (tickStep Params.test (withCount 2)).wd = 3 ∧ ((tickStep Params.test (withCount 2)).cWork).length = 1 := by decide

/-- Vectors W5, W6. -/
theorem test_tick_saturates :
    (tickStep Params.test (withCount 254)).wd = 255 ∧ (tickStep Params.test (withCount 255)).wd = 255 := by decide

/-- Vector W8. -/
theorem test_cmd_sets_and_clears :
    seenC (runOp (.cmd [0x03, 0xE8, 0xF8, 0x30, 0, 0]) (withCount 2)) =
      some (⟨⟨.pwm 1000, .ground⟩, ⟨.ground, .pwm 2000⟩, ⟨.ground, .ground⟩⟩, 0, [[0x00]]) := by decide

/-- Vectors W9, W11. -/
theorem test_cmd_wrong_length :
    seenC (exec (.cmd [0, 0, 0, 0, 0, 0, 0]) (withCount 5)) = some (allGround, 5, [[0xF4]]) ∧
    seenC (exec (.cmd []) (withCount 5)) = some (allGround, 5, [[0xF4]]) := by decide

/-- R91: lines of the spec's programs P3 and P4. -/
theorem test_listing :
    listing (.set .ch2 0xFFFB) = "C: SET 2, -5" ∧ listing (.cmd [3, 232]) = "C: CMD 2, 3, 232" ∧
    stepListing (.legs ⟨.ch1, .b, .pwm 2000⟩ [] true) = "C: .leg 1.B <- Pwm(2000)" := by decide

/-- R92: `CMD3` of program P3, line 1. -/
theorem test_pseudo_cmd3 : pseudoCmd3 1000 (-2000) 0 = .cmd [0x03, 0xE8, 0xF8, 0x30, 0, 0] := by decide

/-! ## Witnesses: a state and operands that meet the hypotheses of each statement -/

/-- The frame of V1's Sample for the start marker of the device. -/
def goodFrame : Frame := encodeFrame Config.params ⟨50, 360, 90⟩

/-- The same frame with a wrong checksum byte. -/
def badFrame : Frame := { goodFrame with f9 := ~~~(checksum8 goodFrame) }

/-- A state in which agent C has taken `goodFrame` from channel 0. -/
def inWindow : State := { withBuf .reading 0 goodFrame.toList with cWork := [.release .ch0] }

/-- A state in which agent C is inside an `FSAFE`. -/
def inFsafe : State := { State.reset with cWork := [.legs ⟨.ch0, .b, .ground⟩ failSafeWrites.tail.tail false] }

theorem not_byte_ne (b : Byte) : ~~~b ≠ b := fun h => by
  have := congrArg (·.getLsbD 0) h
  simp at this

theorem witness_DecodeAfterEncode : (Instr.cmd (List.replicate 255 0)).wellFormed = true := by
  simp only [Instr.wellFormed, List.length_replicate]
  decide

theorem witness_EncodeAfterDecode : decode .c [0x70, 0x00] = .ok (.cmd []) := by decide

theorem witness_RefusalsInOrder_refused :
    refusedBy .c 0x80 [] .illegalOpcode ∧ refusedBy .p 0x00 [] .illegalOpcode ∧ refusedBy .c 0x10 [] .wrongPort ∧
    refusedBy .p 0x70 [] .wrongPort ∧ refusedBy .c 0x23 [] .reservedBits ∧ refusedBy .p 0x1C [] .channelField ∧
    refusedBy .c 0x7C [] .channelField ∧ refusedBy .c 0x40 [0] .length ∧ refusedBy .p 0x10 [] .length ∧
    refusedBy .c 0x30 [] .length ∧ refusedBy .c 0x60 [0] .length ∧ refusedBy .c 0x70 [] .length := by
  simp [refusedBy, lengthFails]

/-- `CMD` of seven well-counted bytes, and of six with one byte missing. -/
theorem witness_RefusalsInOrder_cmd_length :
    refusedBy .c 0x70 [7, 0, 0, 0, 0, 0, 0, 0] .length ∧ refusedBy .c 0x70 [6, 0, 0, 0, 0, 0] .length := by
  simp [refusedBy, lengthFails]

theorem witness_RefusalsInOrder_accepted :
    (∀ r, ¬ refusedBy .c 0x60 [] r) ∧ (∀ r, ¬ refusedBy .p 0x18 [0x5A] r) ∧
    (∀ r, ¬ refusedBy .c 0x70 [6, 0, 0, 0, 0, 0, 0] r) := by
  refine ⟨fun r => ?_, fun r => ?_, fun r => ?_⟩ <;> cases r <;> simp [refusedBy, lengthFails]

theorem witness_SampleBytesAreFrameBytes : decodeFrame v1 = some ⟨50, 360, 90⟩ := by decide

theorem witness_TurnServesRequest_p :
    ({ State.reset with turns := [.p], pIn := [[0x10, 0x5A]] } : State).turns = .p :: [] ∧
    ({ State.reset with turns := [.p], pIn := [[0x10, 0x5A]] } : State).pIn = [0x10, 0x5A] :: [] ∧
    decode .p [0x10, 0x5A] = .ok (.wrb .ch0 0x5A) := by decide

theorem witness_TurnServesRequest_c :
    ({ State.reset with turns := [.c], cIn := [[0x60]] } : State).turns = .c :: [] ∧
    ({ State.reset with turns := [.c], cIn := [[0x60]] } : State).cWork = [] ∧
    ({ State.reset with turns := [.c], cIn := [[0x60]] } : State).cIn = [0x60] :: [] ∧
    decode .c [0x60] = .ok .tick := by decide

theorem witness_TurnContinuesOperation :
    ({ inFsafe with turns := [.c] } : State).turns = .c :: [] ∧
    ({ inFsafe with turns := [.c] } : State).cWork = .legs ⟨.ch0, .b, .ground⟩ failSafeWrites.tail.tail false :: [] := by
  decide

/-- One state for each clause, the last two covering both ways agent C can have a step. -/
theorem witness_StepWithoutTurns :
    (∃ s : State, s.turns = [] ∧ s.pIn ≠ [] ∧ s.cWork = [] ∧ s.cIn = []) ∧
    (∃ s : State, s.turns = [] ∧ s.pIn = [] ∧ s.cIn ≠ []) ∧
    (∃ s : State, s.turns = [] ∧ s.pIn ≠ [] ∧ s.cWork ≠ []) ∧
    (∃ s : State, s.turns = [] ∧ s.pIn ≠ [] ∧ s.cIn ≠ []) ∧
    (State.reset.turns = [] ∧ State.reset.pIn = [] ∧ State.reset.cWork = [] ∧ State.reset.cIn = []) :=
  ⟨⟨{ State.reset with pIn := [[0x10]] }, by decide⟩, ⟨{ State.reset with cIn := [[0x60]] }, by decide⟩,
    ⟨{ inFsafe with pIn := [[0x10]] }, by decide⟩, ⟨{ State.reset with pIn := [[0x10]], cIn := [[0x60]] }, by decide⟩,
    by decide⟩

theorem witness_PlacedWordRuns :
    decodeTableWord 16 0x5A10 = some (.wrb .ch0 0x5A) ∧ (Instr.wrb .ch0 0x5A).port = .p ∧
    decodeTableWord 8 0x60 = some .tick ∧ Instr.tick.port = .c := by decide

/-- A step that serves a request, of each agent. -/
theorem witness_OneResponsePerRequest :
    noReset { State.reset with pIn := [[0x00]] } ∧
    (∃ t, step { State.reset with pIn := [[0x00]] } = .next t) ∧
    (∃ t, step { State.reset with cIn := [[0x50]] } = .next t) :=
  ⟨by simp [noReset, State.reset], ⟨_, rfl⟩, ⟨_, rfl⟩⟩

theorem witness_ResponsesOfTheTable :
    State.reset.cQuiet ∧ (∃ t, runOp .fsafe State.reset = .next t) ∧ (∃ t, runOp (.cmd []) State.reset = .next t) ∧
    (∃ t, runOp (.trs .ch0) (withBuf .doneWriting 0 v1.toList) = .next t) ∧
    (withBuf .doneWriting 0 v1.toList).cQuiet :=
  ⟨⟨rfl, rfl⟩, ⟨_, rfl⟩, ⟨_, rfl⟩, ⟨_, rfl⟩, ⟨rfl, rfl⟩⟩

theorem witness_ProducerTouchesOnlyBuffers : ∃ t, pStep { State.reset with pIn := [[0x00]] } = .next t := ⟨_, rfl⟩

theorem witness_ConsumerStoresNothing : ∃ t, cStep inFsafe = .next t := ⟨_, rfl⟩

theorem witness_ProducerCommutesWithActuation :
    inFsafe.cWork = .legs ⟨.ch0, .b, .ground⟩ failSafeWrites.tail.tail false :: [] ∧
    ∀ c, Work.legs ⟨.ch0, .b, .ground⟩ failSafeWrites.tail.tail false ≠ .release c := ⟨rfl, nofun⟩

theorem witness_WrbStartsFrame :
    (State.reset.buf .ch0).state = .idle ∧ ((withBuf .writing 0 []).buf .ch0).state = .writing ∧
    ((withBuf .writing 0 []).buf .ch0).cursor = 0 := by decide

theorem witness_WrbStoresByte :
    (((withBuf .writing 1 []).buf .ch0).state = .writing ∧ 1 ≤ ((withBuf .writing 1 []).buf .ch0).cursor.toNat) ∧
    (((withBuf .writing 8 []).buf .ch0).state = .writing ∧ ((withBuf .writing 8 []).buf .ch0).cursor.toNat ≤ 8) := by
  decide

theorem witness_WrbCompletesFrame :
    ((withBuf .writing 9 []).buf .ch0).state = .writing ∧ ((withBuf .writing 9 []).buf .ch0).cursor = 9 := by decide

theorem witness_WrbFraming :
    ~~~Config.params.startMarker ≠ Config.params.startMarker ∧ (State.reset.buf .ch0).state = .idle ∧
    ((withBuf .writing 0 []).buf .ch0).state = .writing ∧ ((withBuf .writing 0 []).buf .ch0).cursor = 0 :=
  ⟨not_byte_ne _, by decide⟩

theorem witness_WrbOverrun :
    ((withBuf .doneWriting 0 []).buf .ch0).state = .doneWriting ∧ ((withBuf .reading 0 []).buf .ch0).state = .reading := by
  decide

/-- The boundary values 9 and 10 of the cursor, and 15. -/
theorem witness_WrbStopsOnBadCursor :
    (((withBuf .writing 10 []).buf .ch0).state = .writing ∧ 10 ≤ ((withBuf .writing 10 []).buf .ch0).cursor.toNat) ∧
    (((withBuf .writing 15 []).buf .ch0).state = .writing ∧ 10 ≤ ((withBuf .writing 15 []).buf .ch0).cursor.toNat) ∧
    ¬ (((withBuf .writing 9 []).buf .ch0).state = .writing ∧ 10 ≤ ((withBuf .writing 9 []).buf .ch0).cursor.toNat) := by
  decide

/-- A step that stores, and one that does not. -/
theorem witness_WrbFrame :
    (∃ t, exec (.wrb .ch0 0x12) (withBuf .writing 9 []) = .next t) ∧
    (∃ t, exec (.wrb .ch0 0x12) (withBuf .reading 0 []) = .next t) := ⟨⟨_, rfl⟩, ⟨_, rfl⟩⟩

theorem witness_TrsAcquire :
    ((withBuf .doneWriting 0 []).buf .ch0).state = .doneWriting ∧ (State.reset.buf .ch0).state = .idle ∧
    ((withBuf .writing 4 []).buf .ch0).state = .writing ∧ ((withBuf .reading 0 []).buf .ch0).state = .reading := by decide

/-- A frame with a right checksum, and one with a wrong one. -/
theorem witness_TrsDelivers :
    ((withBuf .doneWriting 0 goodFrame.toList).buf .ch0).state = .doneWriting ∧
    readFrame (withBuf .doneWriting 0 goodFrame.toList) .ch0 = some goodFrame ∧ goodFrame.f9 = checksum8 goodFrame ∧
    readFrame (withBuf .doneWriting 0 badFrame.toList) .ch0 = some badFrame ∧ badFrame.f9 ≠ checksum8 badFrame :=
  ⟨rfl, rfl, rfl, rfl, not_byte_ne _⟩

theorem witness_ReleaseStops :
    ({ State.reset with cWork := [.release .ch0] } : State).cWork = .release .ch0 :: [] ∧
    (({ State.reset with cWork := [.release .ch0] } : State).buf .ch0).state ≠ .reading ∧
    ({ withBuf .reading 0 [0] with cWork := [.release .ch0] } : State).cWork = .release .ch0 :: [] ∧
    (({ withBuf .reading 0 [0] with cWork := [.release .ch0] } : State).buf .ch0).state = .reading ∧
    readFrame { withBuf .reading 0 [0] with cWork := [.release .ch0] } .ch0 = none := by decide

theorem witness_ReentrantRead : inWindow.cWork = .release .ch0 :: [] ∧ (inWindow.buf .ch0).state = .reading :=
  ⟨rfl, rfl⟩

/-- The window with bytes written to the channel being read and to another. -/
theorem witness_ReadWindow :
    inWindow.cWork = .release .ch0 :: [] ∧ (inWindow.buf .ch0).state = .reading ∧
    readFrame inWindow .ch0 = some goodFrame ∧
    ∃ t, feedAll [(.ch0, 0x5A), (.ch0, 0x00)] inWindow = .next t := ⟨rfl, rfl, rfl, ⟨_, rfl⟩⟩

theorem witness_DeliveryExactlyOnce :
    (State.reset.buf .ch0).state = .idle ∧ goodFrame.f0 = Config.params.startMarker ∧
    goodFrame.f9 = checksum8 goodFrame := ⟨rfl, rfl, rfl⟩

theorem witness_SecondReadReturnsNone :
    (withBuf .doneWriting 0 v1.toList).cQuiet ∧
    ∃ t, runOp (.trs .ch0) (withBuf .doneWriting 0 v1.toList) = .next t ∧
      t.cOut = (withBuf .doneWriting 0 v1.toList).cOut ++ [.sample ⟨50, 360, 90⟩] ∧
      ∃ u, feed .ch0 [] t = .next u ∧ (u.buf .ch0).state = .idle :=
  ⟨⟨rfl, rfl⟩, _, rfl, rfl, _, rfl, rfl⟩

theorem witness_StorageReadOnlyInRelease :
    ∀ c ws, inFsafe.cWork = .release c :: ws → (inFsafe.buf c).state ≠ .reading := nofun

theorem witness_NoStoreUnderReader :
    noReset { inWindow with pIn := [[0x10, 0x5A]], turns := [.p] } ∧
    (∃ t, step { inWindow with pIn := [[0x10, 0x5A]], turns := [.p] } = .next t) ∧
    (inWindow.buf .ch0).state = .reading ∧ ((withBuf .doneWriting 0 []).buf .ch0).state = .doneWriting :=
  ⟨by simp [noReset], ⟨_, rfl⟩, rfl, rfl⟩

theorem witness_DecAnswers :
    v1.f9 = ~~~(v1.f0 ^^^ v1.f1 ^^^ v1.f2 ^^^ v1.f3 ^^^ v1.f4 ^^^ v1.f5 ^^^ v1.f6 ^^^ v1.f7 ^^^ v1.f8) ∧
    v11.f9 ≠ ~~~(v11.f0 ^^^ v11.f1 ^^^ v11.f2 ^^^ v11.f3 ^^^ v11.f4 ^^^ v11.f5 ^^^ v11.f6 ^^^ v11.f7 ^^^ v11.f8) := by
  decide

/-- The ends of the three ranges. -/
theorem witness_SampleRoundTrip :
    (-128 : Int) ≤ -128 ∧ (127 : Int) ≤ 127 ∧ (-2147483648 : Int) ≤ -2147483648 ∧ (2147483647 : Int) ≤ 2147483647 ∧
    (-32768 : Int) ≤ -32768 ∧ (32767 : Int) ≤ 32767 := by decide

/-- V1 and its rotation V20. -/
theorem witness_ValidityIsOfTheBytes :
    v1.toList.Perm [0x5A, 0x00, 0xA4, 0x5A, 0x32, 0x00, 0x00, 0x01, 0x68, 0x00] := by decide

theorem witness_SingleByteErrorDetected :
    (decodeFrame v1).isSome = true ∧ v1.toList[9]? ≠ some 0xA5 ∧ v11.toList = v1.toList.set 9 0xA5 ∧
    v1.toList[0]? ≠ some 0x00 ∧ ({ v1 with f0 := 0x00 } : Frame).toList = v1.toList.set 0 0x00 := by decide

theorem witness_MemReadGivesFields : readFrame (withBuf .doneWriting 0 v1.toList) .ch0 = some v1 ∧ 10 < 9 + 2 := by
  decide

theorem witness_SetDrivesLegs :
    (0x0000 : Half).toInt = 0 ∧ 0 < (0x7FFF : Half).toInt ∧ (0x8000 : Half).toInt < 0 := by decide

theorem witness_ReversalPassesThroughBrake :
    (withLegs (.pwm 1000) .ground).motor .ch0 = ⟨.pwm 1000, .ground⟩ ∧
    (withLegs .ground (.pwm 1000)).motor .ch0 = ⟨.ground, .pwm 1000⟩ ∧ (0xFC18 : Half).toInt < 0 ∧
    0 < (0x0001 : Half).toInt := by decide

theorem wdMax_pos (p : Params) : 0 < p.wdMax := by
  have := Nat.pow_le_pow_right (n := 2) (by omega) (Nat.le_add_left 1 p.wdWidthPred)
  unfold Params.wdMax Params.wdWidth
  omega

theorem wdThreshold_le (p : Params) : 1 ≤ p.wdThreshold ∧ p.wdThreshold ≤ p.wdMax :=
  ⟨Nat.le_add_left _ _, Nat.mod_lt _ (wdMax_pos p)⟩

/-- Below `WD_MAX`, at it, and past it; a tick that ends at the threshold. -/
theorem witness_TickCounts :
    State.reset.wd < Config.params.wdMax ∧ Config.params.wdMax ≤ (withCount Config.params.wdMax).wd ∧
    Config.params.wdThreshold ≤ (tickStep Config.params (withCount (Config.params.wdThreshold - 1))).wd := by
  have h := wdThreshold_le Config.params
  refine ⟨wdMax_pos _, Nat.le_refl _, ?_⟩
  have h1 : (tickStep Config.params (withCount (Config.params.wdThreshold - 1))).wd =
      incSat Config.params (Config.params.wdThreshold - 1) := by
    unfold tickStep afterWrites
    split <;> rfl
  rw [h1]
  unfold incSat
  split <;> omega

/-- A tick that stays below the threshold, for parameters that leave room for one: the test instantiation of R8. -/
theorem witness_TickCounts_below : (tickStep Params.test State.reset).wd < Params.test.wdThreshold := by decide

theorem witness_WatchdogForcesFailSafe : State.reset.cQuiet ∧ State.reset.wd = 0 := ⟨⟨rfl, rfl⟩, rfl⟩

/-- Operations other than an accepted `CMD`, among them a refused one; and an accepted one. -/
theorem witness_WatchdogCountsThroughOtherOperations :
    State.reset.cQuiet ∧ State.reset.wd = 0 ∧
    (∀ i, i ∈ [Instr.set .ch0 0x03E8, .trs .ch1, .cmd []] → ¬ acceptedCmd i) ∧
    (∃ t, runOps [.set .ch0 0x03E8, .trs .ch1, .cmd []] State.reset = .next t) ∧
    acceptedCmd (.cmd [0, 0, 0, 0, 0, 0]) := by
  refine ⟨⟨rfl, rfl⟩, rfl, ?_, ⟨_, rfl⟩, ⟨_, rfl, rfl⟩⟩
  intro i hi
  simp only [List.mem_cons, List.not_mem_nil, or_false] at hi
  rcases hi with rfl | rfl | rfl <;> rintro ⟨p, hp, hl⟩ <;> cases hp
  cases hl

/-- A whole `TICK` goes on from every quiet state, to a quiet state. -/
theorem runOp_tick_total {s : State} (h : s.cQuiet) : ∃ t, runOp .tick s = .next t ∧ t.cQuiet := by
  obtain ⟨tb, mem, mc, wd, cWork, pIn, cIn, pOut, cOut, turns, freeTurns⟩ := s
  obtain ⟨h1, h2⟩ := h
  subst h1 h2
  show ∃ t, cRun 6 (tickStep Config.params _) = .next t ∧ t.cQuiet
  unfold tickStep
  split
  · exact ⟨_, rfl, rfl, rfl⟩
  · exact ⟨_, rfl, rfl, rfl⟩

theorem runOps_ticks_total (k : Nat) {s : State} (h : s.cQuiet) :
    ∃ t, runOps (List.replicate k .tick) s = .next t := by
  induction k generalizing s with
  | zero => exact ⟨s, rfl⟩
  | succ k ih =>
    obtain ⟨u, hu, hq⟩ := runOp_tick_total h
    obtain ⟨t, ht⟩ := ih hq
    refine ⟨t, ?_⟩
    show andThen (runOp .tick s) (runOps (List.replicate k .tick)) = .next t
    rw [hu]
    exact ht

/-- One `TICK` short of the threshold: the boundary of the second clause, for every threshold. -/
theorem witness_WatchdogCountsThroughOtherOperations_at :
    (∀ i, i ∈ List.replicate (Config.params.wdThreshold - 1) Instr.tick → ¬ acceptedCmd i) ∧
    (∃ t, runOps (List.replicate (Config.params.wdThreshold - 1) .tick) State.reset = .next t) ∧
    (List.replicate (Config.params.wdThreshold - 1) Instr.tick).count .tick + 1 = Config.params.wdThreshold := by
  have h := (wdThreshold_le Config.params).1
  refine ⟨fun i hi => ?_, runOps_ticks_total _ ⟨rfl, rfl⟩, ?_⟩
  · rw [List.eq_of_mem_replicate hi]
    rintro ⟨p, hp, -⟩
    cases hp
  · rw [List.count_replicate_self]
    omega

/-- Two short of it: the boundary of the first clause, for every threshold that leaves room for one. -/
theorem witness_WatchdogCountsThroughOtherOperations_below (h : 2 ≤ Config.params.wdThreshold) :
    (∀ i, i ∈ List.replicate (Config.params.wdThreshold - 2) Instr.tick → ¬ acceptedCmd i) ∧
    (∃ t, runOps (List.replicate (Config.params.wdThreshold - 2) .tick) State.reset = .next t) ∧
    (List.replicate (Config.params.wdThreshold - 2) Instr.tick).count .tick + 2 = Config.params.wdThreshold := by
  refine ⟨fun i hi => ?_, runOps_ticks_total _ ⟨rfl, rfl⟩, ?_⟩
  · rw [List.eq_of_mem_replicate hi]
    rintro ⟨p, hp, -⟩
    cases hp
  · rw [List.count_replicate_self]
    omega

theorem witness_DirectSetLastsUntilTick :
    (withCount Config.params.wdThreshold).cQuiet ∧ timedOut Config.params (withCount Config.params.wdThreshold) = true :=
  ⟨⟨rfl, rfl⟩, decide_eq_true (Nat.le_refl _)⟩

theorem witness_CmdOfWrongLengthDropped :
    ([] : List Byte).length ≠ 6 ∧ ([0, 0, 0, 0, 0] : List Byte).length ≠ 6 ∧
    ([0, 0, 0, 0, 0, 0, 0] : List Byte).length ≠ 6 := by decide

/-- A step that is the last of a `CMD`, and the first step of one. -/
theorem witness_OnlyCommandFeedsWatchdog :
    noReset { withCount 5 with cWork := [.clearCount], turns := [.c] } ∧
    (∃ t, step { withCount 5 with cWork := [.clearCount], turns := [.c] } = .next t) ∧
    (∃ t, exec (.cmd [0, 0, 0, 0, 0, 0]) (withCount 5) = .next t) :=
  ⟨by simp [noReset], ⟨_, rfl⟩, ⟨_, rfl⟩⟩

theorem witness_ResetInput :
    ({ inWindow with turns := [.rst true false] } : State).turns = .rst true false :: [] := rfl

theorem witness_FirstOperationsAfterReset : ~~~Config.params.startMarker ≠ Config.params.startMarker := not_byte_ne _

/-- A run of three steps: a byte of agent P between two leg writes of an `FSAFE`. -/
theorem witness_NoShootThroughInAnyRun :
    ∃ s, stepRun 3 (launch [[0x00]] [[0x50]] [.c, .p, .c]) = .next s ∧ ∃ t, step s = .next t := ⟨_, rfl, _, rfl⟩

/-- Inside a `SET`, the losing leg already `Ground`. -/
theorem witness_StepKeepsLegInv :
    LegInv { withLegs .ground .ground with cWork := [.legs ⟨.ch0, .a, .pwm 1000⟩ [] false] } ∧
    ∃ t, cStep { withLegs .ground .ground with cWork := [.legs ⟨.ch0, .a, .pwm 1000⟩ [] false] } = .next t := by
  refine ⟨⟨fun c => ?_, fun c => ?_⟩, _, rfl⟩ <;> cases c <;> decide

theorem witness_LegInvExcludesShootThrough : LegInv (withLegs (.pwm 32768) .ground) := fun c => by
  cases c <;> decide

/-- In the read window, with a frame in storage. -/
theorem witness_StepKeepsBufInv : BufInv inWindow ∧ ∃ t, step inWindow = .next t := by
  refine ⟨fun c => ?_, _, rfl⟩
  cases c with
  | ch0 =>
    refine ⟨nofun, fun _ => rfl, fun _ => ⟨rfl, fun i hi => ?_⟩⟩
    have : ∀ i : Fin 10, holdsByte inWindow .ch0 i := fun i => by fin_cases i <;> exact nofun
    exact this ⟨i, hi⟩
  | ch1 => exact ⟨nofun, fun _ => rfl, fun h => by rcases h with h | h <;> cases h⟩
  | ch2 => exact ⟨nofun, fun _ => rfl, fun h => by rcases h with h | h <;> cases h⟩

theorem witness_StepKeepsStorageCanonical :
    Memory.wf (withBuf .writing 5 [1, 2, 3, 4, 5]).mem = true ∧
    ∃ t, step { withBuf .writing 5 [1, 2, 3, 4, 5] with pIn := [[0x10, 0x06]] } = .next t := ⟨by decide, _, rfl⟩

theorem witness_StepKeepsCountInv :
    CountInv (withCount Config.params.wdMax) ∧
    ∃ t, step { withCount Config.params.wdMax with cIn := [[0x60]] } = .next t := ⟨Nat.le_refl _, _, rfl⟩

theorem witness_InvNeverStops : Inv inWindow := by
  refine ⟨rfl, witness_StepKeepsBufInv.1, ⟨Nat.le_refl 1, fun c => ?_⟩, fun c => ?_, Nat.zero_le _⟩
  · cases c with
    | ch0 => exact ⟨fun _ => rfl, fun _ => rfl⟩
    | ch1 => exact ⟨nofun, nofun⟩
    | ch2 => exact ⟨nofun, nofun⟩
  · cases c <;> rfl

theorem witness_OperationsAreBounded :
    (∃ t, exec .fsafe State.reset = .next t) ∧ inFsafe.cWork ≠ [] ∧ (∃ t, cStep inFsafe = .next t) ∧
    (Work.legs ⟨.ch0, .b, .ground⟩ failSafeWrites.tail.tail false).remaining = 5 ∧ Work.clearCount.remaining = 1 :=
  ⟨⟨_, rfl⟩, by decide, ⟨_, rfl⟩, rfl, rfl⟩

end Sys2Proof.Tests
end

/-! PROOFS. The family "state": what a step of each agent leaves unchanged, the invariants of the buffers, the legs
and the watchdog, what no step looks at, and the reset state. -/

namespace Sys2Proof.Machine

/-! ## What a step of agent P leaves unchanged (R31, row `WRB`) -/

/-- In each of its three outcomes `WRB` writes nothing outside the buffers, their storage and the P response port. -/
theorem wrbStep_sameOutsideBuffers {p : Params} {c : Channel} {b : Byte} {s t : State}
    (h : wrbStep p c b s = .next t) : sameOutsideBuffers s t := by
  rcases wrbStep_next h with ⟨-, rfl⟩ | ⟨-, -, -, rfl⟩ | ⟨-, -, hi, rfl⟩ <;> simp [sameOutsideBuffers]

/-- Settles O13: a step of agent P is nothing, a refusal or a `WRB`. -/
theorem producerTouchesOnlyBuffers : Obligations.ProducerTouchesOnlyBuffers := by
  unfold Obligations.ProducerTouchesOnlyBuffers
  intro s t h
  rcases pStep_next h with ⟨hp, rfl⟩ | ⟨bs, rest, hp, ⟨r, -, rfl⟩ | ⟨c, b, -, hw⟩⟩
  · simp [hp]
  · simp [hp]
  · obtain ⟨hmc, hwd, hwork, hpIn, hcIn, hcOut, hturns, hfree⟩ := wrbStep_sameOutsideBuffers hw
    exact ⟨hmc, hwd, hwork, hcIn, hcOut, hturns, hfree, by rw [hp]; exact hpIn⟩

/-- Settles O23: only the accepting outcome of `WRB` stores a byte or changes a buffer's state. -/
theorem wrbFrame : Obligations.WrbFrame := by
  unfold Obligations.WrbFrame
  intro s t c b h
  have hout := wrbStep_sameOutsideBuffers (show wrbStep Config.params c b s = .next t from h)
  rcases wrbStep_next h with ⟨-, rfl⟩ | ⟨-, -, -, rfl⟩ | ⟨-, -, hi, rfl⟩
  · exact ⟨fun _ _ => by simp, fun d hd => by simp [hd], hout, .inr (by simp)⟩
  · exact ⟨fun _ _ => by simp, fun d hd => by simp [hd], hout, .inr (by simp)⟩
  · refine ⟨fun x hx => ?_, fun d hd => ?_, hout, .inl (by simp)⟩
    · rw [respond_mem, storeByte_mem, Memory.read_write_ne _ _ hx]
    · rw [respond_buf, storeByte_buf_ne _ _ _ _ hd]

/-! ## What a step of agent C leaves unchanged (R31, rows of agent C) -/

/-- What a step of agent C can do to a buffer: nothing, take the complete frame (R106), or publish `Idle` (R106,
R107). -/
def ConsumerMove (b b' : TelemetryBuffer) : Prop :=
  b' = b ∨ (b.state = .doneWriting ∧ b' = { b with state := .reading }) ∨
    (b.state = .reading ∧ b' = { b with state := .idle })

theorem ConsumerMove.cursor_eq {b b' : TelemetryBuffer} (h : ConsumerMove b b') : b'.cursor = b.cursor := by
  rcases h with rfl | ⟨-, rfl⟩ | ⟨-, rfl⟩ <;> rfl

/-- The frame of agent C: storage, the P port and the environment's choices are unchanged, and each buffer makes at
most a move of the consumer. -/
structure ConsumerFrame (s t : State) : Prop where
  mem : t.mem = s.mem
  buf : ∀ c, ConsumerMove (s.buf c) (t.buf c)
  pIn : t.pIn = s.pIn
  pOut : t.pOut = s.pOut
  turns : t.turns = s.turns
  freeTurns : t.freeTurns = s.freeTurns

theorem ConsumerFrame.refl (s : State) : ConsumerFrame s s := ⟨rfl, fun _ => .inl rfl, rfl, rfl, rfl, rfl⟩

theorem ConsumerFrame.respond {s t : State} (h : ConsumerFrame s t) (r : Response) :
    ConsumerFrame s (respond .c r t) := ⟨h.mem, h.buf, h.pIn, h.pOut, h.turns, h.freeTurns⟩

theorem ConsumerFrame.pushWork {s t : State} (h : ConsumerFrame s t) (w : Work) : ConsumerFrame s (pushWork w t) :=
  ⟨h.mem, h.buf, h.pIn, h.pOut, h.turns, h.freeTurns⟩

theorem ConsumerFrame.decodeResponse {s t : State} (h : ConsumerFrame s t) (f : Frame) :
    ConsumerFrame s (decodeResponse f t) := by
  obtain ⟨r, hr, -⟩ := decodeResponse_eq_respond f t
  exact hr ▸ h.respond r

theorem ConsumerFrame.afterWrites {s t : State} (h : ConsumerFrame s t) (ws : List LegWrite) (clears : Bool) :
    ConsumerFrame s (afterWrites ws clears t) := by
  rcases afterWrites_cases ws clears t with ⟨w, hw, -⟩ | ⟨-, -, hr⟩
  · exact hw ▸ h.pushWork w
  · exact hr ▸ h.respond .ok

/-- Writing the state of one buffer is inside the frame when it is a move of the consumer. -/
theorem consumerFrame_setState {c : Channel} {v : BufState} {s : State}
    (h : ConsumerMove (s.buf c) { s.buf c with state := v }) : ConsumerFrame s (setState c v s) := by
  refine ⟨rfl, fun d => ?_, rfl, rfl, rfl, rfl⟩
  by_cases hd : d = c
  · subst hd
    simpa using h
  · simp [hd, ConsumerMove]

theorem consumerFrame_legWrite (w : LegWrite) (s : State) : ConsumerFrame s (legWrite w s) :=
  ⟨rfl, fun _ => .inl rfl, rfl, rfl, rfl, rfl⟩

theorem consumerFrame_setCount (n : Nat) (s : State) : ConsumerFrame s (setCount n s) :=
  ⟨rfl, fun _ => .inl rfl, rfl, rfl, rfl, rfl⟩

theorem consumerFrame_acquire (c : Channel) (s : State) : ConsumerFrame s (acquire c s) := by
  rcases acquire_cases c s with ⟨hs, h⟩ | ⟨-, h⟩ | ⟨hs, h⟩ <;> rw [h]
  · exact (consumerFrame_setState (.inr (.inl ⟨hs, rfl⟩))).pushWork _
  · exact (ConsumerFrame.refl s).respond _
  · exact (consumerFrame_setState (.inr (.inr ⟨hs, rfl⟩))).respond _

theorem consumerFrame_continueWork {w : Work} {s t : State} (h : continueWork w s = .next t) : ConsumerFrame s t := by
  rcases continueWork_next h with ⟨c, f, -, hs, -, rfl⟩ | ⟨lw, rest, clears, -, rfl⟩ | ⟨-, rfl⟩
  · exact (consumerFrame_setState (.inr (.inr ⟨hs, rfl⟩))).decodeResponse f
  · exact (consumerFrame_legWrite lw s).afterWrites rest clears
  · exact (consumerFrame_setCount 0 s).respond .ok

theorem consumerFrame_exec {i : Instr} (hi : i.port = .c) {s t : State} (h : exec i s = .next t) :
    ConsumerFrame s t := by
  rcases exec_c_cases hi s with ⟨c, -, he⟩ | ⟨f, -, he⟩ | ⟨w, ws, clears, -, -, -, he⟩ | ⟨-, he⟩ | ⟨p, -, -, he⟩ <;>
    obtain rfl := Host.Outcome.next.inj (he.symm.trans h)
  · exact consumerFrame_acquire c s
  · exact (ConsumerFrame.refl s).decodeResponse f
  · exact (consumerFrame_legWrite w s).afterWrites ws clears
  · exact (consumerFrame_setCount _ s).afterWrites _ false
  · exact (ConsumerFrame.refl s).respond _

/-- Every step of agent C stays inside its frame. -/
theorem consumerFrame_cStep {s t : State} (h : cStep s = .next t) : ConsumerFrame s t := by
  rcases cStep_next h with ⟨-, -, rfl⟩ | ⟨w, ws, -, hw⟩ | ⟨bs, rest, -, -, ⟨r, -, rfl⟩ | ⟨i, -, hi, he⟩⟩
  · exact .refl _
  · obtain ⟨hm, hb, hpi, hpo, ht, hf⟩ := consumerFrame_continueWork hw
    exact ⟨hm, hb, hpi, hpo, ht, hf⟩
  · exact ⟨rfl, fun _ => .inl rfl, rfl, rfl, rfl, rfl⟩
  · obtain ⟨hm, hb, hpi, hpo, ht, hf⟩ := consumerFrame_exec hi he
    exact ⟨hm, hb, hpi, hpo, ht, hf⟩

/-- Settles O14: it is read off the frame of agent C. -/
theorem consumerStoresNothing : Obligations.ConsumerStoresNothing := by
  unfold Obligations.ConsumerStoresNothing
  intro s t h
  have hf := consumerFrame_cStep h
  exact ⟨hf.mem, fun a => by rw [hf.mem], fun c => (hf.buf c).cursor_eq, hf.pIn, hf.pOut, hf.turns, hf.freeTurns⟩

end Sys2Proof.Machine

namespace Sys2Proof.Machine

/-! ## The buffers' invariant (R25, R60) -/

/-- The first `n` bytes of channel `c` hold values, the first of them the start marker `m`. -/
def HoldsFirst (m : Byte) (s : State) (c : Channel) (n : Nat) : Prop :=
  Memory.read s.mem (frameAddr c 0) = some m ∧ ∀ i, i < n → holdsByte s c i

/-- The invariant of R25 by the state of the buffer. -/
theorem bufferInv_iff {m : Byte} {s : State} {c : Channel} :
    bufferInv m s c ↔
      match (s.buf c).state with
      | .idle => (s.buf c).cursor = 0
      | .writing => 1 ≤ (s.buf c).cursor.toNat ∧ (s.buf c).cursor.toNat ≤ 9 ∧
          HoldsFirst m s c (s.buf c).cursor.toNat
      | .doneWriting => (s.buf c).cursor = 0 ∧ HoldsFirst m s c 10
      | .reading => (s.buf c).cursor = 0 ∧ HoldsFirst m s c 10 := by
  unfold bufferInv HoldsFirst
  cases (s.buf c).state <;> simp

/-- The invariant of a channel looks at nothing but its buffer and its ten bytes of storage. -/
theorem bufferInv_congr {m : Byte} {s t : State} {c : Channel} (hb : t.buf c = s.buf c)
    (hm : ∀ i, i < 10 → Memory.read t.mem (frameAddr c i) = Memory.read s.mem (frameAddr c i))
    (h : bufferInv m s c) : bufferInv m t c := by
  have hold : ∀ n, n ≤ 10 → HoldsFirst m s c n → HoldsFirst m t c n := fun n hn ⟨h0, hi⟩ =>
    ⟨(hm 0 (by omega)).trans h0, fun i hin => by rw [holdsByte, hm i (by omega)]; exact hi i hin⟩
  rw [bufferInv_iff] at h ⊢
  rw [hb]
  cases hs : (s.buf c).state <;> rw [hs] at h
  · exact h
  · exact ⟨h.1, h.2.1, hold _ (by omega) h.2.2⟩
  · exact ⟨h.1, hold _ (le_refl 10) h.2⟩
  · exact ⟨h.1, hold _ (le_refl 10) h.2⟩

/-! ### Agent C -/

/-- A move of the consumer keeps the invariant when the storage stays: `Reading` needs what `DoneWriting` needs, and
`Idle` needs less (R106, R107). -/
theorem bufferInv_consumerMove {m : Byte} {s t : State} {c : Channel} (hmem : t.mem = s.mem)
    (hb : ConsumerMove (s.buf c) (t.buf c)) (h : bufferInv m s c) : bufferInv m t c := by
  rcases hb with hb | ⟨hs, hb⟩ | ⟨hs, hb⟩
  · exact bufferInv_congr hb (fun i _ => by rw [hmem]) h
  all_goals
    rw [bufferInv_iff, hs] at h
    rw [bufferInv_iff, hb]
  · simpa [HoldsFirst, holdsByte, hmem] using h
  · exact h.1

theorem bufInv_cStep {s t : State} (h : BufInv s) (hst : cStep s = .next t) : BufInv t := fun c =>
  bufferInv_consumerMove (consumerFrame_cStep hst).mem ((consumerFrame_cStep hst).buf c) (h c)

/-! ### Agent P -/

theorem setCursor_eq_self {c : Channel} {s : State} (h : (s.buf c).cursor = 0) : setCursor c 0 s = s := by
  have htb : s.tb.put c { s.buf c with cursor := 0 } = s.tb := by
    rw [← h]
    exact PerChannel.put_get s.tb c
  unfold setCursor
  rw [htb]

/-- Only in `Writing` is a cursor other than 0. -/
theorem bufferInv.cursor_eq_zero {m : Byte} {s : State} {c : Channel} (h : bufferInv m s c)
    (hs : (s.buf c).state ≠ .writing) : (s.buf c).cursor = 0 := h.2.1 hs

/-- The index a byte takes (R101) has the bytes before it in storage. -/
theorem bufferInv.holdsFirst_wrbIndex {m : Byte} {s : State} {c : Channel} (h : bufferInv m s c)
    (hs : (s.buf c).state = .idle ∨ (s.buf c).state = .writing) (h0 : wrbIndex (s.buf c) ≠ 0) :
    HoldsFirst m s c (wrbIndex (s.buf c)).toNat := by
  rcases hs with hs | hs
  · exact absurd (by simp [wrbIndex, hs]) h0
  · rw [bufferInv_iff, hs] at h
    simpa [wrbIndex, hs] using h.2.2

/-- A byte that may not start a frame arrives at index 0 in `Idle` only. -/
theorem bufferInv.idle_of_wrbIndex_zero {m : Byte} {s : State} {c : Channel} (h : bufferInv m s c)
    (hs : (s.buf c).state = .idle ∨ (s.buf c).state = .writing) (h0 : wrbIndex (s.buf c) = 0) :
    (s.buf c).state = .idle := by
  refine hs.resolve_right fun hw => ?_
  rw [bufferInv_iff, hw] at h
  have hc : (s.buf c).cursor = 0 := by simpa [wrbIndex, hw] using h0
  simp [hc] at h

/-- Storing the byte at index `i` adds one to the bytes held (R101). -/
theorem holdsFirst_storeByte {m : Byte} {s : State} {c : Channel} {i : Fin 10} {b : Byte}
    (h0 : i.val = 0 → b = m) (hi : i.val ≠ 0 → HoldsFirst m s c i.val) :
    HoldsFirst m (storeByte c i b s) c (i.val + 1) := by
  have hread : ∀ j, j < 10 → Memory.read (storeByte c i b s).mem (frameAddr c j) =
      if j = i.val then some b else Memory.read s.mem (frameAddr c j) := fun j hj => by
    rw [storeByte_mem, Memory.read_write]
    simp only [frameAddr_inj hj i.isLt, true_and]
  refine ⟨?_, fun j hj => ?_⟩
  · rw [hread 0 (by omega)]
    split
    · rename_i hz
      rw [h0 hz.symm]
    · rename_i hz
      exact (hi (Ne.symm hz)).1
  · rw [holdsByte, hread j (by omega)]
    split
    · exact nofun
    · exact (hi (by omega)).2 j (by omega)

/-- An accepted byte keeps the invariant of its own channel: the tenth byte completes the frame (R101, R108). -/
theorem bufferInv_storeByte_same {m : Byte} {s : State} {c : Channel} {i : Fin 10} {b : Byte}
    (hs : (s.buf c).state = .idle ∨ (s.buf c).state = .writing) (h0 : i.val = 0 → b = m)
    (hi : i.val ≠ 0 → HoldsFirst m s c i.val) : bufferInv m (storeByte c i b s) c := by
  have hp := holdsFirst_storeByte h0 hi
  rw [bufferInv_iff, storeByte_buf_same hs]
  by_cases h9 : i.val = 9
  · simpa [h9] using hp
  · have hn : (BitVec.ofNat 4 (i.val + 1)).toNat = i.val + 1 := by simp; omega
    simp only [h9, if_false, hn]
    exact ⟨by omega, by omega, hp⟩

/-- An accepted byte keeps the invariant of the other channels: their ten bytes are elsewhere (R50). -/
theorem bufferInv_storeByte_ne {m : Byte} {s : State} {c d : Channel} {i : Fin 10} {b : Byte} (hd : d ≠ c)
    (h : bufferInv m s d) : bufferInv m (storeByte c i b s) d := by
  refine bufferInv_congr (storeByte_buf_ne c i b s hd) (fun j hj => ?_) h
  rw [storeByte_mem, Memory.read_write_ne]
  exact fun ha => hd ((frameAddr_inj hj i.isLt).1 ha).1

/-- Under the invariant of its channel a refused byte changes nothing but the response: the cursor it resets is 0
already. -/
theorem wrbStep_next_of_bufferInv {p : Params} {c : Channel} {b : Byte} {s t : State}
    (h : bufferInv p.startMarker s c) (hst : wrbStep p c b s = .next t) :
    (∃ e, t = respond .p (.error e) s) ∨
    (((s.buf c).state = .idle ∨ (s.buf c).state = .writing) ∧ (wrbIndex (s.buf c) = 0 → b = p.startMarker) ∧
      ∃ hi : (wrbIndex (s.buf c)).toNat < 10,
        t = respond .p .ok (storeByte c ⟨(wrbIndex (s.buf c)).toNat, hi⟩ b s)) := by
  rcases wrbStep_next hst with ⟨hs, rfl⟩ | ⟨hs, h0, -, rfl⟩ | hacc
  · have hc : (s.buf c).cursor = 0 := h.cursor_eq_zero (by rcases hs with hs | hs <;> simp [hs])
    exact .inl ⟨.overrun, by rw [setCursor_eq_self hc]⟩
  · have hc : (s.buf c).cursor = 0 := h.cursor_eq_zero (by simp [h.idle_of_wrbIndex_zero hs h0])
    exact .inl ⟨.framing, by rw [setCursor_eq_self hc]⟩
  · exact .inr hacc

theorem bufferInv_respond {m : Byte} {s : State} {d : Channel} (a : Agent) (r : Response) (h : bufferInv m s d) :
    bufferInv m (respond a r s) d := bufferInv_congr (by simp) (fun i _ => by simp) h

/-- `WRB` keeps the invariant of every channel. -/
theorem bufferInv_wrbStep {p : Params} {c : Channel} {b : Byte} {s t : State}
    (h : ∀ d, bufferInv p.startMarker s d) (hst : wrbStep p c b s = .next t) (d : Channel) :
    bufferInv p.startMarker t d := by
  rcases wrbStep_next_of_bufferInv (h c) hst with ⟨e, rfl⟩ | ⟨hs, hb, hi, rfl⟩
  · exact bufferInv_respond _ _ (h d)
  · refine bufferInv_respond _ _ ?_
    by_cases hd : d = c
    · subst hd
      exact bufferInv_storeByte_same hs (fun h0 => hb (BitVec.eq_of_toNat_eq h0))
        fun h0 => (h d).holdsFirst_wrbIndex hs fun hz => h0 (by simp [hz])
    · exact bufferInv_storeByte_ne hd (h d)

theorem bufInv_pStep {s t : State} (h : BufInv s) (hst : pStep s = .next t) : BufInv t := by
  rcases pStep_next hst with ⟨-, rfl⟩ | ⟨bs, rest, -, ⟨r, -, rfl⟩ | ⟨c, b, -, hw⟩⟩
  · exact h
  · exact h
  · exact bufferInv_wrbStep (show ∀ d, bufferInv _ { s with pIn := rest } d from h) hw

/-! ### Every step -/

/-- The buffers of R38 meet the invariant. -/
theorem bufInv_of_reset {s : State} (h : s.tb = State.reset.tb) : BufInv s := fun c => by
  have hb : s.buf c = ⟨.idle, 0⟩ := by rw [State.buf, h]; cases c <;> rfl
  rw [bufferInv_iff, hb]

/-- Settles O55: agent P adds one to the bytes held or changes no buffer, agent C only gives a complete frame on, and
the reset input empties every buffer. -/
theorem stepKeepsBufInv : Obligations.StepKeepsBufInv := by
  unfold Obligations.StepKeepsBufInv
  intro s t hs hst
  exact step_keeps (fun _ _ _ h => h) (fun _ _ => bufInv_pStep) (fun _ _ => bufInv_cStep)
    (fun _ _ _ _ => bufInv_of_reset rfl) hs hst

end Sys2Proof.Machine

namespace Sys2Proof.Machine

/-! ## The legs' shapes (R28, R157, R158) -/

theorem writesKeepShapes.shapes {mc : PerChannel MotorChannel} {ws : List LegWrite} (h : writesKeepShapes mc ws) :
    legShapes mc := by
  cases ws with
  | nil => exact h
  | cons w ws => exact h.1

theorem legInv_of_idle {s : State} (hw : s.cWork = []) : LegInv s ↔ legShapes s.mc := by simp [LegInv, hw]

theorem legInv_of_work {s : State} {w : Work} (hw : s.cWork = [w]) :
    LegInv s ↔ writesKeepShapes s.mc w.writes := by simp [LegInv, hw]

/-- Under the invariant at most one operation of agent C is in progress (R78). -/
theorem LegInv.tail_eq_nil {s : State} {w : Work} {ws : List Work} (h : LegInv s) (hw : s.cWork = w :: ws) :
    ws = [] := by
  cases ws with
  | nil => rfl
  | cons v vs => simp [LegInv, hw] at h

theorem LegInv.shapes {s : State} (h : LegInv s) : legShapes s.mc := by
  cases hw : s.cWork with
  | nil => exact (legInv_of_idle hw).1 h
  | cons w ws =>
    rw [h.tail_eq_nil hw] at hw
    exact ((legInv_of_work hw).1 h).shapes

/-- The three shapes, spelled out (R158). -/
theorem MotorChannel.shape_iff (m : MotorChannel) :
    m.shape = true ↔ m.a.written = true ∧ m.b.written = true ∧ ¬ (m.a.isPwm = true ∧ m.b.isPwm = true) := by
  simp [MotorChannel.shape, and_assoc, imp_iff_not_or]

@[simp] theorem Leg.written_ground : Leg.ground.written = true := rfl

@[simp] theorem Leg.isPwm_ground : Leg.ground.isPwm = false := rfl

theorem Leg.written_pwm {d : Half} : (Leg.pwm d).written = true ↔ 1 ≤ d.toNat ∧ d.toNat ≤ 32768 := by
  simp [Leg.written]

/-- Settles O54: it is the three shapes, spelled out. -/
theorem legInvExcludesShootThrough : Obligations.LegInvExcludesShootThrough := by
  unfold Obligations.LegInvExcludesShootThrough
  intro s c h
  obtain ⟨ha, hb, hab⟩ := (MotorChannel.shape_iff (s.motor c)).1 (h.shapes c)
  refine ⟨fun d e hm => ?_, fun hoff => ?_, fun hoff => ?_, fun d hd => ?_⟩
  · exact hab (by simp [hm, Leg.isPwm])
  · simp [hoff, Leg.written] at ha
  · simp [hoff, Leg.written] at hb
  · rcases hd with hd | hd
    · exact Leg.written_pwm.1 (hd ▸ ha)
    · exact Leg.written_pwm.1 (hd ▸ hb)

/-! ### Leg writes that keep the shapes -/

/-- The leg writes `ws`, begun with any legs of the three shapes, keep the shapes after each of them. -/
def KeepsShapes (ws : List LegWrite) : Prop := ∀ mc, legShapes mc → writesKeepShapes mc ws

theorem keepsShapes_nil : KeepsShapes [] := fun _ h => h

theorem writesKeepShapes.append {mc : PerChannel MotorChannel} {ws ws' : List LegWrite}
    (h : writesKeepShapes mc ws) (h' : KeepsShapes ws') : writesKeepShapes mc (ws ++ ws') := by
  induction ws generalizing mc with
  | nil => exact h' mc h
  | cons w ws ih => exact ⟨h.1, ih h.2⟩

theorem KeepsShapes.append {ws ws' : List LegWrite} (h : KeepsShapes ws) (h' : KeepsShapes ws') :
    KeepsShapes (ws ++ ws') := fun mc hmc => (h mc hmc).append h'

/-- A leg write that gives its channel one of the shapes leaves every channel with one. -/
theorem legShapes_applyWrite {w : LegWrite} {mc : PerChannel MotorChannel} (h : legShapes mc)
    (hw : ((mc.get w.ch).putLeg w.side w.value).shape = true) : legShapes (applyWrite w mc) := fun c => by
  by_cases hc : c = w.ch
  · rw [hc, applyWrite_get_same]
    exact hw
  · rw [applyWrite_get_ne w mc hc]
    exact h c

theorem shape_putLeg_ground {m : MotorChannel} (side : LegSide) (h : m.shape = true) :
    (m.putLeg side .ground).shape = true := by
  rw [MotorChannel.shape_iff] at h ⊢
  cases side <;> simp [MotorChannel.putLeg, h]

/-- A grounded leg may stand before any writes that keep the shapes. -/
theorem KeepsShapes.ground {ws : List LegWrite} (h : KeepsShapes ws) (c : Channel) (side : LegSide) :
    KeepsShapes (⟨c, side, .ground⟩ :: ws) := fun _ hmc =>
  ⟨hmc, h _ (legShapes_applyWrite hmc (shape_putLeg_ground side (hmc c)))⟩

/-- Once the losing leg is grounded, the gaining one may be driven (R155). -/
theorem shape_putLeg_pwm {m : MotorChannel} {losing gaining : LegSide} {d : Half} (hne : losing ≠ gaining)
    (hd : 1 ≤ d.toNat ∧ d.toNat ≤ 32768) : ((m.putLeg losing .ground).putLeg gaining (.pwm d)).shape = true := by
  have hw : (Leg.pwm d).written = true := Leg.written_pwm.2 hd
  rw [MotorChannel.shape_iff]
  cases losing <;> cases gaining <;> simp [MotorChannel.putLeg, hw] at hne ⊢

/-- The two writes of a `SET` that drives a leg (R152): the losing leg is grounded a step before. -/
theorem keepsShapes_drive (c : Channel) {losing gaining : LegSide} {d : Half} (hne : losing ≠ gaining)
    (hd : 1 ≤ d.toNat ∧ d.toNat ≤ 32768) : KeepsShapes [⟨c, losing, .ground⟩, ⟨c, gaining, .pwm d⟩] := by
  intro mc hmc
  have hground := legShapes_applyWrite (w := ⟨c, losing, .ground⟩) hmc (shape_putLeg_ground losing (hmc c))
  refine ⟨hmc, hground, legShapes_applyWrite hground ?_⟩
  have hget := applyWrite_get_same ⟨c, losing, .ground⟩ mc
  rw [hget]
  exact shape_putLeg_pwm hne hd

theorem duty_range {v : Half} (h : sint v ≠ 0) : 1 ≤ (duty (sint v)).toNat ∧ (duty (sint v)).toNat ≤ 32768 := by
  obtain ⟨heq, hle⟩ := duty_toNat (v := v)
  omega

theorem keepsShapes_setWrites (c : Channel) (v : Half) : KeepsShapes (setWrites c v) := by
  rcases setWrites_eq c v with ⟨-, h⟩ | ⟨hv, h⟩ | ⟨hv, h⟩ <;> rw [h]
  · exact (keepsShapes_nil.ground c .b).ground c .a
  · exact keepsShapes_drive c nofun (duty_range (by omega))
  · exact keepsShapes_drive c nofun (duty_range (by omega))

theorem keepsShapes_failSafeWrites : KeepsShapes failSafeWrites :=
  (((((keepsShapes_nil.ground _ _).ground _ _).ground _ _).ground _ _).ground _ _).ground _ _

theorem keepsShapes_commandWrites (v0 v1 v2 : Half) : KeepsShapes (commandWrites v0 v1 v2) :=
  ((keepsShapes_setWrites .ch0 v0).append (keepsShapes_setWrites .ch1 v1)).append (keepsShapes_setWrites .ch2 v2)

/-! ### The steps -/

/-- With no other operation in progress, going on to the writes `ws` meets the invariant when they keep the shapes. -/
theorem legInv_afterWrites {s : State} {ws : List LegWrite} (clears : Bool) (hw : s.cWork = [])
    (h : writesKeepShapes s.mc ws) : LegInv (afterWrites ws clears s) := by
  rcases afterWrites_cases ws clears s with ⟨w, ha, hws⟩ | ⟨-, -, ha⟩ <;> rw [ha]
  · rw [legInv_of_work (w := w) (by simp [hw])]
    rcases hws with ⟨lw, rest, rfl, rfl⟩ | ⟨rfl, -, rfl⟩ <;> exact h
  · exact (legInv_of_idle (by simpa using hw)).2 (by simpa using h.shapes)

theorem legInv_startWrites {s : State} {ws : List LegWrite} (clears : Bool) (hw : s.cWork = [])
    (hmc : legShapes s.mc) (h : KeepsShapes ws) : LegInv (startWrites ws clears s) := by
  cases ws with
  | nil => exact legInv_afterWrites clears hw hmc
  | cons w rest => exact legInv_afterWrites clears hw (h _ hmc).2

theorem legInv_acquire {s : State} (c : Channel) (hw : s.cWork = []) (hmc : legShapes s.mc) :
    LegInv (acquire c s) := by
  rcases acquire_cases c s with ⟨-, h⟩ | ⟨-, h⟩ | ⟨-, h⟩ <;> rw [h]
  · exact (legInv_of_work (w := .release c) (by simp [hw])).2 hmc
  · exact (legInv_of_idle (by simpa using hw)).2 hmc
  · exact (legInv_of_idle (by simpa using hw)).2 hmc

/-- The first step of an operation of agent C, begun with no operation in progress. -/
theorem legInv_exec {i : Instr} (hi : i.port = .c) {s t : State} (hw : s.cWork = []) (hmc : legShapes s.mc)
    (h : exec i s = .next t) : LegInv t := by
  cases i with
  | wrb c b => cases hi
  | trs c =>
    obtain rfl := Host.Outcome.next.inj h
    exact legInv_acquire c hw hmc
  | dec f =>
    obtain rfl := Host.Outcome.next.inj h
    exact (legInv_of_idle (by simpa using hw)).2 (by simpa using hmc)
  | set c v =>
    obtain rfl := Host.Outcome.next.inj h
    exact legInv_startWrites false hw hmc (keepsShapes_setWrites c v)
  | fsafe =>
    obtain rfl := Host.Outcome.next.inj h
    exact legInv_startWrites false hw hmc keepsShapes_failSafeWrites
  | tick =>
    obtain rfl := Host.Outcome.next.inj h
    refine legInv_afterWrites false hw ?_
    split
    · exact keepsShapes_failSafeWrites _ hmc
    · exact hmc
  | cmd p =>
    rcases execCmd_cases p s with ⟨p0, p1, p2, p3, p4, p5, -, he⟩ | ⟨-, he⟩ <;>
      obtain rfl := Host.Outcome.next.inj (he.symm.trans h)
    · exact legInv_startWrites true hw hmc (keepsShapes_commandWrites _ _ _)
    · exact (legInv_of_idle (by simpa using hw)).2 hmc

/-- The next step of the one operation in progress. -/
theorem legInv_continueWork {w : Work} {s t : State} (hw : s.cWork = []) (hmc : writesKeepShapes s.mc w.writes)
    (h : continueWork w s = .next t) : LegInv t := by
  rcases continueWork_next h with ⟨c, f, -, -, -, rfl⟩ | ⟨lw, rest, clears, rfl, rfl⟩ | ⟨-, rfl⟩
  · exact (legInv_of_idle (by simpa using hw)).2 (by simpa using hmc.shapes)
  · exact legInv_afterWrites clears hw hmc.2
  · exact (legInv_of_idle (by simpa using hw)).2 hmc.shapes

theorem legInv_cStep {s t : State} (h : LegInv s) (hst : cStep s = .next t) : LegInv t := by
  rcases cStep_next hst with ⟨-, -, rfl⟩ | ⟨w, ws, hw, hc⟩ | ⟨bs, rest, hw, -, hreq⟩
  · exact h
  · have hnil := h.tail_eq_nil hw
    rw [hnil] at hw
    exact legInv_continueWork (s := { s with cWork := ws }) hnil ((legInv_of_work hw).1 h) hc
  · rcases hreq with ⟨r, -, rfl⟩ | ⟨i, -, hi, he⟩
    · exact (legInv_of_idle hw).2 h.shapes
    · exact legInv_exec (s := { s with cIn := rest }) hi hw h.shapes he

theorem legInv_pStep {s t : State} (h : LegInv s) (hst : pStep s = .next t) : LegInv t := by
  obtain ⟨hmc, -, hwork, -⟩ := producerTouchesOnlyBuffers s t hst
  unfold LegInv
  rw [hmc, hwork]
  exact h

/-- All legs `Ground` and no operation in progress meet the invariant (R38). -/
theorem legInv_of_reset {s : State} (hmc : s.mc = State.reset.mc) (hw : s.cWork = []) : LegInv s := by
  rw [legInv_of_idle hw, hmc]
  intro c
  cases c <;> rfl

/-- Settles O53: agent P touches no leg, each operation's writes keep the shapes from whatever legs it finds, and the
reset input grounds all legs. -/
theorem stepKeepsLegInv : Obligations.StepKeepsLegInv := by
  unfold Obligations.StepKeepsLegInv
  intro s t hs hst
  exact step_keeps (fun _ _ _ h => h) (fun _ _ => legInv_pStep) (fun _ _ => legInv_cStep)
    (fun _ _ _ _ => legInv_of_reset rfl rfl) hs hst

end Sys2Proof.Machine

namespace Sys2Proof.Machine

/-! ## What a step of agent C does to the legs and the watchdog counter -/

@[simp] theorem acquire_wd (c : Channel) (s : State) : (acquire c s).wd = s.wd := by
  rcases acquire_cases c s with ⟨-, h⟩ | ⟨-, h⟩ | ⟨-, h⟩ <;> simp [h]

@[simp] theorem acquire_mc (c : Channel) (s : State) : (acquire c s).mc = s.mc := by
  rcases acquire_cases c s with ⟨-, h⟩ | ⟨-, h⟩ | ⟨-, h⟩ <;> simp [h]

@[simp] theorem tickStep_wd (p : Params) (s : State) : (tickStep p s).wd = incSat p s.wd := by simp [tickStep]

@[simp] theorem tickStep_mc (p : Params) (s : State) : (tickStep p s).mc = s.mc := by simp [tickStep]

/-- What a step of agent C does to the legs and the watchdog counter: at most one leg write, and the counter stays, is
counted on by a `TICK` or cleared by the end of a `CMD`. -/
structure ActuationMove (s t : State) : Prop where
  mc : t.mc = s.mc ∨ ∃ w, t.mc = applyWrite w s.mc
  wd : t.wd = s.wd ∨ t.wd = incSat Config.params s.wd ∨ t.wd = 0

theorem ActuationMove.of_eq {s t : State} (hmc : t.mc = s.mc) (hwd : t.wd = s.wd) : ActuationMove s t :=
  ⟨.inl hmc, .inl hwd⟩

theorem actuationMove_exec {i : Instr} (hi : i.port = .c) {s t : State} (h : exec i s = .next t) :
    ActuationMove s t := by
  rcases exec_c_cases hi s with ⟨c, -, he⟩ | ⟨f, -, he⟩ | ⟨w, ws, clears, -, -, -, he⟩ | ⟨-, he⟩ | ⟨p, -, -, he⟩ <;>
    obtain rfl := Host.Outcome.next.inj (he.symm.trans h)
  · exact .of_eq (acquire_mc c s) (acquire_wd c s)
  · exact .of_eq (decodeResponse_mc f s) (decodeResponse_wd f s)
  · exact ⟨.inr ⟨w, by simp⟩, .inl (by simp)⟩
  · exact ⟨.inl (tickStep_mc _ s), .inr (.inl (tickStep_wd _ s))⟩
  · exact .of_eq rfl rfl

theorem actuationMove_continueWork {w : Work} {s t : State} (h : continueWork w s = .next t) :
    ActuationMove s t := by
  rcases continueWork_next h with ⟨c, f, -, -, -, rfl⟩ | ⟨lw, rest, clears, -, rfl⟩ | ⟨-, rfl⟩
  · exact .of_eq (by simp) (by simp)
  · exact ⟨.inr ⟨lw, by simp⟩, .inl (by simp)⟩
  · exact ⟨.inl rfl, .inr (.inr rfl)⟩

theorem actuationMove_cStep {s t : State} (h : cStep s = .next t) : ActuationMove s t := by
  rcases cStep_next h with ⟨-, -, rfl⟩ | ⟨w, ws, -, hw⟩ | ⟨bs, rest, -, -, ⟨r, -, rfl⟩ | ⟨i, -, hi, he⟩⟩
  · exact .of_eq rfl rfl
  · obtain ⟨hmc, hwd⟩ := actuationMove_continueWork hw
    exact ⟨hmc, hwd⟩
  · exact .of_eq rfl rfl
  · obtain ⟨hmc, hwd⟩ := actuationMove_exec hi he
    exact ⟨hmc, hwd⟩

/-! ## The watchdog counter (R29, R173) -/

theorem incSat_le {p : Params} {n : Nat} (h : n ≤ p.wdMax) : incSat p n ≤ p.wdMax := by
  unfold incSat
  split <;> omega

theorem countInv_pStep {s t : State} (h : CountInv s) (hst : pStep s = .next t) : CountInv t := by
  obtain ⟨-, hwd, -⟩ := producerTouchesOnlyBuffers s t hst
  rw [CountInv, hwd]
  exact h

theorem countInv_cStep {s t : State} (h : CountInv s) (hst : cStep s = .next t) : CountInv t := by
  rcases (actuationMove_cStep hst).wd with hwd | hwd | hwd <;> rw [CountInv, hwd]
  · exact h
  · exact incSat_le h
  · exact Nat.zero_le _

/-- Settles O57: the counter stays, is counted on saturating, or is cleared. -/
theorem stepKeepsCountInv : Obligations.StepKeepsCountInv := by
  unfold Obligations.StepKeepsCountInv
  intro s t hs hst
  exact step_keeps (fun _ _ _ h => h) (fun _ _ => countInv_pStep) (fun _ _ => countInv_cStep)
    (fun _ _ _ _ => Nat.zero_le _) hs hst

/-! ## The reset state (R38) -/

/-- Settles O49: the threshold is at least 1, so the cleared counter is not timed out. -/
theorem resetValues : Obligations.ResetValues := by
  unfold Obligations.ResetValues
  refine ⟨fun c => ?_, fun c => ?_, rfl, ?_⟩
  · cases c <;> rfl
  · cases c <;> rfl
  · simp [timedOut, State.reset, Params.wdThreshold]

/-- Settles O59: each invariant holds of the values of R38, which the requests and turns do not touch. -/
theorem resetMeetsInv : Obligations.ResetMeetsInv := by
  unfold Obligations.ResetMeetsInv
  intro pIn cIn turns
  refine ⟨Memory.wf_nil, bufInv_of_reset rfl, ⟨Nat.zero_le 1, fun c => ?_⟩, legInv_of_reset rfl rfl, Nat.zero_le _⟩
  have hidle : (State.reset.buf c).state = .idle := by rw [resetValues.1 c]
  exact ⟨fun h => absurd (hidle.symm.trans h) nofun, nofun⟩

/-! ## No shoot-through in any run (R28) -/

/-- A property that every step keeps holds after any number of steps. -/
theorem stepRun_keeps {I : State → Prop} (hstep : ∀ s t, I s → step s = .next t → I t) {n : Nat} {s t : State}
    (hs : I s) (h : stepRun n s = .next t) : I t := by
  induction n generalizing s with
  | zero =>
    obtain rfl := Host.Outcome.next.inj h
    exact hs
  | succ n ih =>
    obtain ⟨u, hu, hrest⟩ := andThen_next.1 h
    exact ih (hstep s u hs hu) hrest

/-- A step changes at most one leg, or grounds all of them. -/
theorem step_mc {s t : State} (h : step s = .next t) :
    t.mc = s.mc ∨ (∃ w, t.mc = applyWrite w s.mc) ∨ t.mc = State.reset.mc := by
  obtain ⟨turns, n, hp | hc | ⟨dropP, dropC, rest, -, rfl⟩ | rfl⟩ := step_next h
  · exact .inl (producerTouchesOnlyBuffers _ _ hp).1
  · exact (actuationMove_cStep hc).mc.imp_right .inl
  · exact .inr (.inr rfl)
  · exact .inl rfl

/-- A leg write to a motor channel leaves one of its two legs. -/
theorem putLeg_keeps_a_leg (m : MotorChannel) (side : LegSide) (v : Leg) :
    (m.putLeg side v).a = m.a ∨ (m.putLeg side v).b = m.b := by
  cases side
  · exact .inr rfl
  · exact .inl rfl

/-- Of the two legs of a channel a step changes at most one, or it grounds both. -/
theorem step_motor {s t : State} (h : step s = .next t) (c : Channel) :
    ((t.motor c).a = (s.motor c).a ∨ (t.motor c).b = (s.motor c).b) ∨ t.motor c = ⟨.ground, .ground⟩ := by
  simp only [State.motor]
  rcases step_mc h with hmc | ⟨w, hmc⟩ | hmc <;> rw [hmc]
  · exact .inl (.inl rfl)
  · by_cases hc : c = w.ch
    · subst hc
      rw [applyWrite_get_same]
      exact .inl (putLeg_keeps_a_leg _ _ _)
    · rw [applyWrite_get_ne _ _ hc]
      exact .inl (.inl rfl)
  · exact .inr (resetValues.2.1 c)

theorem MotorChannel.eq_mk {m : MotorChannel} {a b : Leg} (ha : m.a = a) (hb : m.b = b) : m = ⟨a, b⟩ := by
  rw [← ha, ← hb]

theorem Leg.ground_or_off {l : Leg} (h : ∀ d, l ≠ .pwm d) : l = .ground ∨ l = .off := by
  cases l with
  | off => exact .inr rfl
  | ground => exact .inl rfl
  | pwm d => exact absurd rfl (h d)

/-- Settles O52: the invariant holds along the run; and since a step changes one leg of a channel only, the complement
of a leg that a step drives was already what it is after the step, which is not `Pwm`. -/
theorem noShootThroughInAnyRun : Obligations.NoShootThroughInAnyRun := by
  unfold Obligations.NoShootThroughInAnyRun
  intro pIn cIn turns n s hrun c
  have hs : LegInv s := stepRun_keeps stepKeepsLegInv (legInv_of_reset (s := launch pIn cIn turns) rfl rfl) hrun
  refine ⟨(legInvExcludesShootThrough s c hs).1, fun t ht => ?_⟩
  have hnot := (legInvExcludesShootThrough t c (stepKeepsLegInv s t hs ht)).1
  have hmove := step_motor ht c
  refine ⟨fun d hd hchanged => Leg.ground_or_off fun e he => ?_, fun d hd hchanged => Leg.ground_or_off fun e he => ?_⟩
  · rcases hmove with (ha | hb) | hg
    · exact hchanged (ha ▸ hd)
    · exact hnot d e (MotorChannel.eq_mk hd (hb.trans he))
    · simp [hg] at hd
  · rcases hmove with (ha | hb) | hg
    · exact hnot e d (MotorChannel.eq_mk (ha.trans he) hd)
    · exact hchanged (hb ▸ hd)
    · simp [hg] at hd

end Sys2Proof.Machine

namespace Sys2Proof.Machine

/-! ## What the steps do not look at (R24, R27, R31) -/

/-- The state `s` with the storage `m` and the legs `mc` in place of its own. -/
def overlay (m : Memory) (mc : PerChannel MotorChannel) (s : State) : State := { s with mem := m, mc := mc }

/-- From `s`, `f` looks neither at the storage nor at the legs: whatever they hold, the storage passes through and the
legs change in the same way `g`. -/
def Blind (f : State → Host.Outcome State Fault Refusal) (s : State) : Prop :=
  ∃ g : PerChannel MotorChannel → PerChannel MotorChannel, ∀ m mc,
    f (overlay m mc s) = andThen (f s) fun t => .next (overlay m (g mc) t)

/-- From `s`, `f` does the same but for the legs, whatever the legs are. -/
def LegBlind (f : State → Host.Outcome State Fault Refusal) (s : State) : Prop :=
  ∀ mc, eraseLegs (f { s with mc := mc }) = eraseLegs (f s)

theorem blind_next {F : State → State} {g : PerChannel MotorChannel → PerChannel MotorChannel}
    (h : ∀ m mc s, F (overlay m mc s) = overlay m (g mc) (F s)) (s : State) : Blind (fun s => .next (F s)) s :=
  ⟨g, fun m mc => congrArg _ (h m mc s)⟩

theorem Blind.eraseStorage_eq {f : State → Host.Outcome State Fault Refusal} {s : State} (h : Blind f s) (m : Memory) :
    eraseStorage (f { s with mem := m }) = eraseStorage (f s) := by
  obtain ⟨g, hg⟩ := h
  have herase : ∀ m, eraseStorage (f (overlay m s.mc s)) =
      andThen (f s) fun t => .next (overlay [] (g s.mc) t) := fun m => by
    rw [hg]
    cases f s <;> rfl
  exact (herase m).trans (herase s.mem).symm

theorem Blind.legBlind {f : State → Host.Outcome State Fault Refusal} {s : State} (h : Blind f s) : LegBlind f s := by
  obtain ⟨g, hg⟩ := h
  have herase : ∀ mc, eraseLegs (f (overlay s.mem mc s)) =
      andThen (f s) fun t => .next (overlay s.mem State.reset.mc t) := fun mc => by
    rw [hg]
    cases f s <;> rfl
  exact fun mc => (herase mc).trans (herase s.mc).symm

/-! ### Agent C -/

theorem respond_overlay (a : Agent) (r : Response) (m : Memory) (mc : PerChannel MotorChannel) (s : State) :
    respond a r (overlay m mc s) = overlay m mc (respond a r s) := by cases a <;> rfl

theorem decodeResponse_overlay (f : Frame) (m : Memory) (mc : PerChannel MotorChannel) (s : State) :
    decodeResponse f (overlay m mc s) = overlay m mc (decodeResponse f s) := by
  unfold decodeResponse
  cases decodeFrame f <;> rfl

theorem acquire_overlay (c : Channel) (m : Memory) (mc : PerChannel MotorChannel) (s : State) :
    acquire c (overlay m mc s) = overlay m mc (acquire c s) := by
  have hb : (overlay m mc s).buf c = s.buf c := rfl
  rcases acquire_cases c s with ⟨hs, h⟩ | ⟨hs, h⟩ | ⟨hs, h⟩ <;> rw [h]
  · exact acquire_doneWriting (hb ▸ hs)
  · exact acquire_none (hb ▸ hs)
  · exact acquire_reading (hb ▸ hs)

theorem afterWrites_overlay (ws : List LegWrite) (clears : Bool) (m : Memory) (mc : PerChannel MotorChannel)
    (s : State) : afterWrites ws clears (overlay m mc s) = overlay m mc (afterWrites ws clears s) := by
  cases ws <;> cases clears <;> rfl

theorem performWrite_overlay (w : LegWrite) (ws : List LegWrite) (clears : Bool) (m : Memory)
    (mc : PerChannel MotorChannel) (s : State) :
    performWrite w ws clears (overlay m mc s) = overlay m (applyWrite w mc) (performWrite w ws clears s) :=
  afterWrites_overlay ws clears m (applyWrite w mc) (legWrite w s)

theorem tickStep_overlay (p : Params) (m : Memory) (mc : PerChannel MotorChannel) (s : State) :
    tickStep p (overlay m mc s) = overlay m mc (tickStep p s) :=
  afterWrites_overlay _ false m mc (setCount (incSat p s.wd) s)

theorem blind_startWrites (ws : List LegWrite) (clears : Bool) (s : State) :
    Blind (fun s => .next (startWrites ws clears s)) s := by
  cases ws with
  | nil => exact blind_next (g := id) (afterWrites_overlay [] clears) s
  | cons w ws => exact blind_next (performWrite_overlay w ws clears) s

/-- `CMD` is the leg writes of its six bytes, or the refusal of its length, whatever the state (R175). -/
theorem execCmd_eq (p : List Byte) :
    (∃ ws, execCmd p = fun s => .next (startWrites ws true s)) ∨
      execCmd p = fun s => .next (respond .c (.refused .length) s) := by
  unfold execCmd
  split
  · exact .inl ⟨_, rfl⟩
  · exact .inr rfl

theorem blind_exec {i : Instr} (hi : i.port = .c) (s : State) : Blind (exec i) s := by
  cases i with
  | wrb c b => cases hi
  | trs c => exact blind_next (g := id) (acquire_overlay c) s
  | dec f => exact blind_next (g := id) (decodeResponse_overlay f) s
  | set c v => exact blind_startWrites (setWrites c v) false s
  | fsafe => exact blind_startWrites failSafeWrites false s
  | tick => exact blind_next (g := id) (tickStep_overlay Config.params) s
  | cmd p =>
    change Blind (execCmd p) s
    rcases execCmd_eq p with ⟨ws, h⟩ | h <;> rw [h]
    · exact blind_startWrites ws true s
    · exact blind_next (g := id) (respond_overlay .c _) s

theorem blind_serve_c (bs : Request) (s : State) : Blind (serve .c bs) s := by
  unfold serve
  cases hd : decode .c bs with
  | ok i => exact blind_exec (decode_port hd) s
  | error r => exact blind_next (g := id) (respond_overlay .c _) s

/-- A release step outside `Reading` stops before it reads the storage (R107). -/
theorem release_of_not_reading {c : Channel} {s : State} (h : (s.buf c).state ≠ .reading) :
    release c s = .fault .badRelease := by simp [release, h]

/-- A release step in `Reading` stops where a byte of the frame was never written (R38). -/
theorem release_of_unwritten {c : Channel} {s : State} (h : (s.buf c).state = .reading) (hf : readFrame s c = none) :
    release c s = .fault .readBeforeWrite := by simp [release, h, hf]

theorem blind_continueWork {w : Work} {s : State} (h : ∀ c, w = .release c → (s.buf c).state ≠ .reading) :
    Blind (continueWork w) s := by
  cases w with
  | release c =>
    have hs := h c rfl
    refine ⟨id, fun m mc => ?_⟩
    simp only [continueWork]
    rw [release_of_not_reading hs, release_of_not_reading (s := overlay m mc s) hs]
    rfl
  | legs lw rest clears => exact blind_next (performWrite_overlay lw rest clears) s
  | clearCount => exact blind_next (g := id) (F := clearStep) (fun _ _ _ => rfl) s

theorem cStep_of_work {s : State} {w : Work} {ws : List Work} (hw : s.cWork = w :: ws) :
    cStep s = continueWork w { s with cWork := ws } := by simp [cStep, hw]

theorem cStep_of_request {s : State} {bs : Request} {rest : List Request} (hw : s.cWork = [])
    (hc : s.cIn = bs :: rest) : cStep s = serve .c bs { s with cIn := rest } := by simp [cStep, hw, hc]

theorem cStep_of_quiet {s : State} (h : s.cQuiet) : cStep s = .next s := by
  obtain ⟨hw, hc⟩ := h
  simp [cStep, hw, hc]

/-- But for a release step in `Reading`, a step of agent C looks neither at the storage nor at the legs. -/
theorem blind_cStep {s : State} (h : ∀ c ws, s.cWork = .release c :: ws → (s.buf c).state ≠ .reading) :
    Blind cStep s := by
  cases hw : s.cWork with
  | cons w ws =>
    obtain ⟨g, hg⟩ := blind_continueWork (s := { s with cWork := ws }) fun c hc => h c ws (hc ▸ hw)
    exact ⟨g, fun m mc => by
      rw [cStep_of_work hw, cStep_of_work (s := overlay m mc s) hw]
      exact hg m mc⟩
  | nil =>
    cases hc : s.cIn with
    | cons bs rest =>
      obtain ⟨g, hg⟩ := blind_serve_c bs { s with cIn := rest }
      exact ⟨g, fun m mc => by
        rw [cStep_of_request hw hc, cStep_of_request (s := overlay m mc s) hw hc]
        exact hg m mc⟩
    | nil =>
      exact ⟨id, fun m mc => by
        rw [cStep_of_quiet ⟨hw, hc⟩, cStep_of_quiet (s := overlay m mc s) ⟨hw, hc⟩]
        rfl⟩

/-- Settles O31: outside a release step in `Reading` agent C is blind to the storage. -/
theorem storageReadOnlyInRelease : Obligations.StorageReadOnlyInRelease := by
  unfold Obligations.StorageReadOnlyInRelease
  exact fun _ m h => (blind_cStep h).eraseStorage_eq m

/-! ### The legs -/

theorem legBlind_release (c : Channel) (s : State) : LegBlind (release c) s := by
  intro mc
  by_cases hs : (s.buf c).state = .reading
  · cases hf : readFrame s c with
    | none =>
      rw [release_of_unwritten hs hf, release_of_unwritten (s := { s with mc := mc }) hs hf]
    | some f =>
      rw [release_next.2 ⟨hs, f, hf, rfl⟩, (release_next (s := { s with mc := mc })).2 ⟨hs, f, hf, rfl⟩]
      exact (blind_next (g := id) (decodeResponse_overlay f) (setState c .idle s)).legBlind mc
  · rw [release_of_not_reading hs, release_of_not_reading (s := { s with mc := mc }) hs]

theorem legBlind_cStep (s : State) : LegBlind cStep s := by
  by_cases h : ∀ c ws, s.cWork = .release c :: ws → (s.buf c).state ≠ .reading
  · exact (blind_cStep h).legBlind
  · push Not at h
    obtain ⟨c, ws, hw, -⟩ := h
    intro mc
    rw [cStep_of_work hw, cStep_of_work (s := { s with mc := mc }) hw]
    exact legBlind_release c { s with cWork := ws } mc

theorem storeByte_withLegs (c : Channel) (i : Fin 10) (b : Byte) (mc : PerChannel MotorChannel) (s : State) :
    storeByte c i b { s with mc := mc } = { storeByte c i b s with mc := mc } := by
  have hb : State.buf { s with mc := mc } c = s.buf c := rfl
  unfold storeByte advance casState
  rw [hb]
  split <;> split <;> rfl

theorem acceptByte_withLegs (p : Params) (c : Channel) (i : Fin 10) (b : Byte) (mc : PerChannel MotorChannel)
    (s : State) : acceptByte p c i b { s with mc := mc } = { acceptByte p c i b s with mc := mc } := by
  unfold acceptByte
  rw [storeByte_withLegs]
  split <;> rfl

theorem legBlind_wrbStep (p : Params) (c : Channel) (b : Byte) (s : State) : LegBlind (wrbStep p c b) s := by
  intro mc
  have hb : State.buf { s with mc := mc } c = s.buf c := rfl
  unfold wrbStep
  simp only [hb, acceptByte_withLegs]
  split
  · rfl
  · split <;> rfl

theorem legBlind_serve_p (bs : Request) (s : State) : LegBlind (serve .p bs) s := by
  unfold serve
  cases hd : decode .p bs with
  | ok i =>
    obtain ⟨c, b, rfl⟩ := port_p (decode_port hd)
    exact legBlind_wrbStep Config.params c b s
  | error r => exact fun _ => rfl

theorem pStep_of_quiet {s : State} (hp : s.pIn = []) : pStep s = .next s := by simp [pStep, hp]

theorem pStep_of_request {s : State} {bs : Request} {rest : List Request} (hp : s.pIn = bs :: rest) :
    pStep s = serve .p bs { s with pIn := rest } := by simp [pStep, hp]

theorem legBlind_pStep (s : State) : LegBlind pStep s := by
  cases hp : s.pIn with
  | nil =>
    intro mc
    rw [pStep_of_quiet hp, pStep_of_quiet (s := { s with mc := mc }) hp]
    rfl
  | cons bs rest =>
    intro mc
    rw [pStep_of_request hp, pStep_of_request (s := { s with mc := mc }) hp]
    exact legBlind_serve_p bs { s with pIn := rest } mc

theorem legBlind_takeTurn (tn : Turn) (s : State) : LegBlind (takeTurn tn) s := by
  cases tn with
  | p => exact legBlind_pStep s
  | c => exact legBlind_cStep s
  | rst dropP dropC => exact fun _ => rfl

theorem legBlind_freeStep (s : State) : LegBlind freeStep s := by
  intro mc
  have hp : State.pReady { s with mc := mc } = s.pReady := rfl
  have hc : State.cReady { s with mc := mc } = s.cReady := rfl
  unfold freeStep
  rw [hp, hc]
  cases s.pReady <;> cases s.cReady
  · rfl
  · exact legBlind_cStep s mc
  · exact legBlind_pStep s mc
  · dsimp only
    cases Config.freeTurn s.freeTurns with
    | p => exact legBlind_pStep { s with freeTurns := s.freeTurns + 1 } mc
    | c => exact legBlind_cStep { s with freeTurns := s.freeTurns + 1 } mc

theorem step_of_turn {s : State} {tn : Turn} {rest : List Turn} (h : s.turns = tn :: rest) :
    step s = takeTurn tn { s with turns := rest } := by simp [step, h]

theorem step_of_no_turn {s : State} (h : s.turns = []) : step s = freeStep s := by simp [step, h]

/-- Settles O15: every step of either agent, and the reset input, is blind to the legs but for the legs themselves. -/
theorem legsNeverRead : Obligations.LegsNeverRead := by
  unfold Obligations.LegsNeverRead
  intro s
  change LegBlind step s
  cases ht : s.turns with
  | nil =>
    intro mc
    rw [step_of_no_turn ht, step_of_no_turn (s := { s with mc := mc }) ht]
    exact legBlind_freeStep s mc
  | cons tn rest =>
    intro mc
    rw [step_of_turn ht, step_of_turn (s := { s with mc := mc }) ht]
    exact legBlind_takeTurn tn { s with turns := rest } mc

end Sys2Proof.Machine

/-! PROOFS. The family "memory": what a step stores, the decoder's fields as reads of the storage, whose step a turn
is, and how many steps an operation takes. -/

namespace Sys2Proof.Machine

/-! ## What a step stores (R50, R60, R101) -/

/-- What a step that is not a reset can do to the storage: nothing, or store one byte in the frame of a channel whose
buffer still accepts bytes. -/
def StorageMove (s t : State) : Prop :=
  t.mem = s.mem ∨ ∃ (c : Channel) (i : Fin 10) (b : Byte),
    ((s.buf c).state = .idle ∨ (s.buf c).state = .writing) ∧ t.mem = Memory.write s.mem (frameAddr c i.val) b

theorem storageMove_wrbStep {p : Params} {c : Channel} {b : Byte} {s t : State} (h : wrbStep p c b s = .next t) :
    StorageMove s t := by
  rcases wrbStep_next h with ⟨-, rfl⟩ | ⟨-, -, -, rfl⟩ | ⟨hs, -, hi, rfl⟩
  · exact .inl (by simp)
  · exact .inl (by simp)
  · exact .inr ⟨c, _, b, hs, by rw [respond_mem, storeByte_mem]⟩

theorem storageMove_pStep {s t : State} (h : pStep s = .next t) : StorageMove s t := by
  rcases pStep_next h with ⟨-, rfl⟩ | ⟨bs, rest, -, ⟨r, -, rfl⟩ | ⟨c, b, -, hw⟩⟩
  · exact .inl rfl
  · exact .inl rfl
  · exact storageMove_wrbStep (s := { s with pIn := rest }) hw

theorem storageMove_step {s t : State} (hn : noReset s) (h : step s = .next t) : StorageMove s t := by
  obtain ⟨turns, n, hp | hc | ⟨dropP, dropC, rest, hr, -⟩ | rfl⟩ := step_next h
  · exact storageMove_pStep (s := { s with turns := turns, freeTurns := n }) hp
  · exact .inl (consumerFrame_cStep hc).mem
  · exact absurd hr (hn dropP dropC rest)
  · exact .inl rfl

/-- Settles O32: the channel a byte is stored for accepts bytes, so it is another one, and its frame is elsewhere. -/
theorem noStoreUnderReader : Obligations.NoStoreUnderReader := by
  unfold Obligations.NoStoreUnderReader
  intro s t c hn h hs i hi
  rcases storageMove_step hn h with hm | ⟨d, j, b, hd, hm⟩ <;> rw [hm]
  have hcd : c ≠ d := by
    rintro rfl
    rcases hs with hs | hs <;> simp [hs] at hd
  exact Memory.read_write_ne _ _ fun ha => hcd ((frameAddr_inj hi j.isLt).1 ha).1

theorem StorageMove.wf {s t : State} (h : StorageMove s t) (hs : Memory.wf s.mem = true) :
    Memory.wf t.mem = true := by
  rcases h with hm | ⟨c, i, b, -, hm⟩ <;> rw [hm]
  · exact hs
  · exact Memory.write_wf b hs (frameAddr_lt c i.isLt)

/-- Settles O56: a store goes to an address of the storage, in its place, and the reset input lists no address. -/
theorem stepKeepsStorageCanonical : Obligations.StepKeepsStorageCanonical := by
  unfold Obligations.StepKeepsStorageCanonical
  intro s t hs h
  refine step_keeps (I := fun s => Memory.wf s.mem = true) (fun _ _ _ hs => hs)
    (fun _ _ hs hp => (storageMove_pStep hp).wf hs) (fun _ _ hs hc => ?_) (fun _ _ _ _ => Memory.wf_nil) hs h
  rw [(consumerFrame_cStep hc).mem]
  exact hs

end Sys2Proof.Machine

namespace Sys2Proof.Machine

/-! ## How many steps an operation takes (R58, R89, R234) -/

/-- The step from `s` to `t` leaves `n` steps of its operation to do: with none left it has given the response. -/
def StepsLeft (n : Nat) (s t : State) : Prop :=
  (n = 0 ∧ t.cWork = s.cWork ∧ t.cOut.length = s.cOut.length + 1) ∨
    ∃ w, w.remaining = n ∧ t.cWork = w :: s.cWork ∧ t.cOut = s.cOut

theorem Work.remaining_pos (w : Work) : 0 < w.remaining := by
  cases w <;> simp only [Work.remaining] <;> omega

theorem stepsLeft_respond (r : Response) (s : State) : StepsLeft 0 s (respond .c r s) :=
  .inl ⟨rfl, rfl, by simp⟩

theorem stepsLeft_pushWork (w : Work) (s : State) : StepsLeft w.remaining s (pushWork w s) :=
  .inr ⟨w, rfl, rfl, rfl⟩

theorem stepsLeft_decodeResponse (f : Frame) (s : State) : StepsLeft 0 s (decodeResponse f s) := by
  obtain ⟨r, hr, -⟩ := decodeResponse_eq_respond f s
  exact hr ▸ stepsLeft_respond r s

theorem stepsLeft_afterWrites (ws : List LegWrite) (clears : Bool) (s : State) :
    StepsLeft (ws.length + if clears then 1 else 0) s (afterWrites ws clears s) := by
  rcases afterWrites_cases ws clears s with ⟨w, -, ⟨lw, rest, rfl, rfl⟩ | ⟨rfl, rfl, rfl⟩⟩ | ⟨rfl, rfl, -⟩
  · have hr : (Work.legs lw rest clears).remaining = (lw :: rest).length + if clears then 1 else 0 := by
      simp [Work.remaining, Nat.add_comm 1]
    exact hr ▸ stepsLeft_pushWork _ s
  · exact stepsLeft_pushWork .clearCount s
  · exact stepsLeft_respond .ok s

theorem stepsLeft_acquire (c : Channel) (s : State) : ∃ n, n ≤ 1 ∧ StepsLeft n s (acquire c s) := by
  rcases acquire_cases c s with ⟨-, h⟩ | ⟨-, h⟩ | ⟨-, h⟩ <;> rw [h]
  · exact ⟨1, Nat.le_refl 1, stepsLeft_pushWork (.release c) (setState c .reading s)⟩
  · exact ⟨0, Nat.zero_le 1, stepsLeft_respond _ s⟩
  · exact ⟨0, Nat.zero_le 1, stepsLeft_respond _ (setState c .idle s)⟩

/-- The first step of an operation of agent C leaves at most six: five leg writes and the counter clear of a `CMD`, or
the six leg writes of a timed-out `TICK`. -/
theorem stepsLeft_exec {i : Instr} (hi : i.port = .c) {s t : State} (h : exec i s = .next t) :
    ∃ n, n ≤ 6 ∧ StepsLeft n s t := by
  rcases exec_c_cases hi s with ⟨c, -, he⟩ | ⟨f, -, he⟩ | ⟨w, ws, clears, -, hws, -, he⟩ | ⟨-, he⟩ | ⟨p, -, -, he⟩ <;>
    obtain rfl := Host.Outcome.next.inj (he.symm.trans h)
  · obtain ⟨n, hn, hleft⟩ := stepsLeft_acquire c s
    exact ⟨n, by omega, hleft⟩
  · exact ⟨0, by omega, stepsLeft_decodeResponse f s⟩
  · exact ⟨_, by split <;> omega, stepsLeft_afterWrites ws clears (legWrite w s)⟩
  · refine ⟨_, ?_, stepsLeft_afterWrites _ false (setCount (incSat Config.params s.wd) s)⟩
    split <;> decide
  · exact ⟨0, by omega, stepsLeft_respond _ s⟩

/-- Each further step does one of the steps left. -/
theorem stepsLeft_continueWork {w : Work} {s t : State} (h : continueWork w s = .next t) :
    ∃ n, n + 1 = w.remaining ∧ StepsLeft n s t := by
  rcases continueWork_next h with ⟨c, f, rfl, -, -, rfl⟩ | ⟨lw, rest, clears, rfl, rfl⟩ | ⟨rfl, rfl⟩
  · exact ⟨0, rfl, stepsLeft_decodeResponse f (setState c .idle s)⟩
  · exact ⟨_, by simp only [Work.remaining]; omega, stepsLeft_afterWrites rest clears (legWrite lw s)⟩
  · exact ⟨0, rfl, stepsLeft_respond .ok (setCount 0 s)⟩

/-- Settles O60: the first step leaves at most six steps, each further step does one of them, and the one that leaves
none gives the response. -/
theorem operationsAreBounded : Obligations.OperationsAreBounded := by
  unfold Obligations.OperationsAreBounded
  refine ⟨fun i s t h => ?_, fun s t w ws hw h => ?_⟩
  · cases hi : i.port with
    | p =>
      obtain ⟨c, b, rfl⟩ := port_p hi
      obtain ⟨-, -, hwork, -⟩ := wrbStep_sameOutsideBuffers (show wrbStep Config.params c b s = .next t from h)
      exact .inl hwork
    | c =>
      obtain ⟨n, hn, ⟨-, hwork, -⟩ | ⟨w, hr, hwork, -⟩⟩ := stepsLeft_exec hi h
      · exact .inl hwork
      · exact .inr ⟨w, hwork, by omega⟩
  · rw [cStep_of_work hw] at h
    obtain ⟨n, hn, ⟨rfl, hwork, hout⟩ | ⟨w', rfl, hwork, hout⟩⟩ := stepsLeft_continueWork h
    · exact ⟨fun _ => ⟨hwork, hout⟩, fun hlt => by omega⟩
    · have hpos := w'.remaining_pos
      exact ⟨fun hone => by omega, fun _ => ⟨hout, w', hwork, hn⟩⟩

end Sys2Proof.Machine

namespace Sys2Proof.Machine

/-! ## Whose step a turn is (R59, R78) -/

theorem serve_of_decode {a : Agent} {bs : Request} {i : Instr} (hd : decode a bs = .ok i) (s : State) :
    serve a bs s = exec i s := by simp [serve, hd]

/-- Settles O7: the turn is the agent's step, and that serves the request. -/
theorem turnServesRequest : Obligations.TurnServesRequest := by
  unfold Obligations.TurnServesRequest
  refine fun s rest bs reqs i => ⟨fun ht hp hd => ?_, fun ht hw hc hd => ?_⟩
  · calc step s = pStep { s with turns := rest } := step_of_turn ht
      _ = serve .p bs { s with turns := rest, pIn := reqs } := pStep_of_request hp
      _ = exec i { s with turns := rest, pIn := reqs } := serve_of_decode hd _
  · calc step s = cStep { s with turns := rest } := step_of_turn ht
      _ = serve .c bs { s with turns := rest, cIn := reqs } := cStep_of_request hw hc
      _ = exec i { s with turns := rest, cIn := reqs } := serve_of_decode hd _

/-- Settles O8: agent C goes on with its operation before it looks at its port. -/
theorem turnContinuesOperation : Obligations.TurnContinuesOperation := by
  unfold Obligations.TurnContinuesOperation
  intro s rest w ws ht hw
  calc step s = cStep { s with turns := rest } := step_of_turn ht
    _ = continueWork w { s with turns := rest, cWork := ws } := cStep_of_work hw

theorem pReady_iff {s : State} : s.pReady = true ↔ s.pIn ≠ [] := by simp [State.pReady]

theorem cReady_iff {s : State} : s.cReady = true ↔ s.cWork ≠ [] ∨ s.cIn ≠ [] := by
  simp [State.cReady]

theorem cReady_eq_false_iff {s : State} : s.cReady = false ↔ s.cQuiet := by
  simp [State.cReady, State.cQuiet]

theorem pReady_eq_false_iff {s : State} : s.pReady = false ↔ s.pIn = [] := by simp [State.pReady]

theorem freeStep_of_c_quiet {s : State} (hp : s.pReady = true) (hc : s.cReady = false) : freeStep s = pStep s := by
  simp [freeStep, hp, hc]

/-- With nothing presented on the P port the step is agent C's, which changes nothing when it has nothing to do. -/
theorem freeStep_of_p_quiet {s : State} (hp : s.pReady = false) : freeStep s = cStep s := by
  cases hc : s.cReady with
  | true => simp [freeStep, hp, hc]
  | false => rw [cStep_of_quiet (cReady_eq_false_iff.1 hc)]; simp [freeStep, hp, hc]

theorem freeStep_of_both_ready {s : State} (hp : s.pReady = true) (hc : s.cReady = true) :
    freeStep s = pStep { s with freeTurns := s.freeTurns + 1 } ∨
      freeStep s = cStep { s with freeTurns := s.freeTurns + 1 } := by
  cases hf : Config.freeTurn s.freeTurns with
  | p => exact .inl (by simp [freeStep, hp, hc, hf])
  | c => exact .inr (by simp [freeStep, hp, hc, hf])

/-- Settles O9: which of the four cases of a step without turns it is follows from who has something to do. -/
theorem stepWithoutTurns : Obligations.StepWithoutTurns := by
  unfold Obligations.StepWithoutTurns
  intro s ht
  rw [step_of_no_turn ht]
  refine ⟨fun hp hw hc => ?_, fun hp => ?_, fun hp hc => ?_, fun hp hw hc => ?_⟩
  · exact freeStep_of_c_quiet (pReady_iff.2 hp) (cReady_eq_false_iff.2 ⟨hw, hc⟩)
  · exact freeStep_of_p_quiet (pReady_eq_false_iff.2 hp)
  · exact freeStep_of_both_ready (pReady_iff.2 hp) (cReady_iff.2 hc)
  · rw [freeStep_of_p_quiet (pReady_eq_false_iff.2 hp), cStep_of_quiet ⟨hw, hc⟩]

end Sys2Proof.Machine

namespace Sys2Proof.Machine

/-! ## The decoder's fields as reads of the storage (R51, R52, R53) -/

/-- A read inside a stored frame is the big-endian value of its bytes (R52). -/
theorem memRead_of_readFrame {s : State} {c : Channel} {f : Frame} (hf : readFrame s c = some f) {i n : Nat}
    (h : i + n ≤ 10) : memRead s c i n = some (bigEndian ((f.toList.drop i).take n)) := by
  have hbytes : Memory.readBytes s.mem (frameAddr c i) n = some ((f.toList.drop i).take n) := by
    refine readBytes_eq_some.2 ⟨by simp; omega, fun j hj => ?_⟩
    have haddr : frameAddr c i + j = frameAddr c (i + j) := by simp [frameAddr, Nat.add_assoc]
    rw [haddr, readFrame_eq_some.1 hf (i + j) (by omega)]
    simp [hj]
  simp [memRead, h, hbytes]

theorem memRead_of_past_end {s : State} {c : Channel} {i n : Nat} (h : 10 < i + n) : memRead s c i n = none := by
  simp [memRead, Nat.not_le.2 h]

/-- Appending a byte to a pattern multiplies its value by 256 and adds the byte (R10, R51). -/
theorem toNat_append_byte {w : Nat} (v : BitVec w) (b : Byte) : (v ++ b).toNat = v.toNat * 256 + b.toNat := by
  rw [BitVec.toNat_append, ← Nat.shiftLeft_add_eq_or_of_lt b.isLt, Nat.shiftLeft_eq]

/-- Settles O37: each field is the big-endian value of the bytes read, and the fields lie inside the ten bytes. -/
theorem memReadGivesFields : Obligations.MemReadGivesFields := by
  unfold Obligations.MemReadGivesFields
  intro s c f hf
  refine ⟨?_, ?_, ?_, ?_, fun i n h => memRead_of_past_end h⟩ <;>
    rw [memRead_of_readFrame hf (by decide)] <;>
    simp only [Frame.toList, List.drop_succ_cons, List.drop_zero, List.take_succ_cons, List.take_zero, bigEndian,
      List.foldl_cons, List.foldl_nil, toNat_append_byte, Nat.zero_mul, Nat.zero_add]

end Sys2Proof.Machine

/-! PROOFS. The family "encoding": the request encoding, its checks, the responses of whole operations, and the order
of the two agents' steps. -/

namespace Sys2Proof.Machine

/-! ## The round trip of a request (R81 to R84) -/

theorem ofList_toList (f : Frame) : Frame.ofList f.toList = some f := Frame.ofList_eq_some.2 rfl

/-- The byte count of an encodable host command fits its length byte (R83). -/
theorem length_toNat_of_wellFormed {p : List Byte} (h : (Instr.cmd p).wellFormed = true) :
    p.length = (BitVec.ofNat 8 p.length).toNat := by
  have hp : p.length ≤ 255 := by simpa [Instr.wellFormed] using h
  simp
  omega

/-- Settles O1: the header passes the checks of its row, and each format's operands are read back from their bytes. -/
theorem decodeAfterEncode : Obligations.DecodeAfterEncode := by
  unfold Obligations.DecodeAfterEncode
  intro i hi
  cases i with
  | wrb c b => exact decode_header [b] (channelFor_bits .wrb rfl c)
  | trs c => exact decode_header [] (channelFor_bits .trs rfl c)
  | dec f =>
    refine (decode_header f.toList (channelFor_zero .dec rfl)).trans ?_
    simp only [decodeOperands, ofList_toList]
  | set c v =>
    refine (decode_header _ (channelFor_bits .set rfl c)).trans ?_
    exact congrArg (fun v => Except.ok (Instr.set c v)) (half_of_bytes v)
  | fsafe => exact decode_header [] (channelFor_zero .fsafe rfl)
  | tick => exact decode_header [] (channelFor_zero .tick rfl)
  | cmd p =>
    refine (decode_header _ (channelFor_zero .cmd rfl)).trans ?_
    exact if_pos (length_toNat_of_wellFormed hi)

/-- Settles O2: the checks passed determine the header, and the operands kept every byte after it. -/
theorem encodeAfterDecode : Obligations.EncodeAfterDecode := by
  unfold Obligations.EncodeAfterDecode
  intro a bs i hd
  cases bs with
  | nil => cases hd
  | cons h rest =>
    obtain ⟨op, c, hop, -, hrsv, hch, ho⟩ := decode_ok hd
    obtain ⟨-, hwf, henc⟩ := decodeOperands_ok ho
    obtain ⟨hbits, hzero⟩ := channelFor_eq_some hch
    have hh : header op (headerCh h) = h := header_of_fields h op (opcodeOf_eq_some hop) hrsv
    exact ⟨by rw [henc _ hbits hzero, hh], decode_port hd, hwf⟩

end Sys2Proof.Machine

namespace Sys2Proof.Machine

/-! ## The checks of a request, in the numbers of its header (R81, R85) -/

theorem headerOp_toNat (h : Byte) : (headerOp h).toNat = h.toNat / 16 := by
  simp [headerOp, Nat.shiftRight_eq_div_pow]
  omega

theorem headerCh_toNat (h : Byte) : (headerCh h).toNat = h.toNat / 4 % 4 := by
  simp [headerCh, Nat.shiftRight_eq_div_pow]

theorem headerRsv_toNat (h : Byte) : (headerRsv h).toNat = h.toNat % 4 := by simp [headerRsv]

theorem headerRsv_eq_zero_iff (h : Byte) : headerRsv h = 0 ↔ h.toNat % 4 = 0 := by
  rw [← headerRsv_toNat, ← BitVec.toNat_inj]
  rfl

theorem opcodeOf_eq_none_iff (c : BitVec 4) : opcodeOf c = none ↔ c.toNat = 0 ∨ 8 ≤ c.toNat := by
  revert c
  decide

theorem code_legal (op : Opcode) : ¬ (op.code.toNat = 0 ∨ 8 ≤ op.code.toNat) := by cases op <;> decide

/-- The port check of R85. -/
theorem port_ne_iff (op : Opcode) (a : Agent) :
    (op.code.toNat = 1 ∧ a = .c) ∨ (op.code.toNat ≠ 1 ∧ a = .p) ↔ op.port ≠ a := by
  cases op <;> cases a <;> decide

/-- The channel check of R85. -/
theorem channelFor_eq_none_iff (op : Opcode) (ch : BitVec 2) :
    ((op.code.toNat = 1 ∨ op.code.toNat = 2 ∨ op.code.toNat = 4) ∧ ch.toNat = 3) ∨
      ((op.code.toNat = 3 ∨ op.code.toNat = 5 ∨ op.code.toNat = 6 ∨ op.code.toNat = 7) ∧ ch.toNat ≠ 0) ↔
    channelFor op ch = none := by
  revert ch
  cases op <;> decide

/-- The request is refused for its length: the bytes after the header are not as many as the row `op` takes, or they are
a `CMD` of another length than six (R85, R175). -/
def OperandsRefused (op : Opcode) (c : Channel) (rest : List Byte) : Prop :=
  decodeOperands op c rest = .error .length ∨ ∃ p : List Byte, decodeOperands op c rest = .ok (.cmd p) ∧ p.length ≠ 6

theorem ofList_eq_none_iff {bs : List Byte} : Frame.ofList bs = none ↔ bs.length ≠ 10 := by
  unfold Frame.ofList
  split
  · simp
  · rename_i h
    refine iff_of_true rfl fun hl => ?_
    match bs, hl with
    | [b0, b1, b2, b3, b4, b5, b6, b7, b8, b9], _ => exact h _ _ _ _ _ _ _ _ _ _ rfl

/-- The length check of R85, row by row. -/
theorem operandsRefused_iff (op : Opcode) (c : Channel) (rest : List Byte) :
    OperandsRefused op c rest ↔ lengthFails op.code.toNat rest := by
  unfold OperandsRefused lengthFails
  cases op with
  | wrb => match rest with
    | [] | [_] | _ :: _ :: _ => simp [decodeOperands, Opcode.code]
  | trs => cases rest <;> simp [decodeOperands, Opcode.code]
  | dec =>
    cases hf : Frame.ofList rest with
    | none => simpa [decodeOperands, Opcode.code, hf] using ofList_eq_none_iff.1 hf
    | some f =>
      obtain rfl := Frame.ofList_eq_some.1 hf
      simp [decodeOperands, Opcode.code, hf]
  | set => match rest with
    | [] | [_] | [_, _] | _ :: _ :: _ :: _ => simp [decodeOperands, Opcode.code]
  | fsafe => cases rest <;> simp [decodeOperands, Opcode.code]
  | tick => cases rest <;> simp [decodeOperands, Opcode.code]
  | cmd =>
    cases rest with
    | nil => simp [decodeOperands, Opcode.code]
    | cons n p => by_cases hl : p.length = n.toNat <;> simp [decodeOperands, Opcode.code, hl]

/-- The checks of R85 for a header of the row `op`, as the decoder performs them. -/
def RefusedInRow (op : Opcode) (a : Agent) (h : Byte) (rest : List Byte) : RequestRefusal → Prop
  | .illegalOpcode => False
  | .wrongPort => op.port ≠ a
  | .reservedBits => op.port = a ∧ headerRsv h ≠ 0
  | .channelField => op.port = a ∧ headerRsv h = 0 ∧ channelFor op (headerCh h) = none
  | .length => op.port = a ∧ headerRsv h = 0 ∧ ∃ c, channelFor op (headerCh h) = some c ∧ OperandsRefused op c rest

theorem refusedBy_illegalOpcode_iff (a : Agent) (h : Byte) (rest : List Byte) :
    refusedBy a h rest .illegalOpcode ↔ opcodeOf (headerOp h) = none := by
  rw [opcodeOf_eq_none_iff, headerOp_toNat]
  rfl

/-- An illegal opcode is refused by the first check only: every later one asks for a legal opcode. -/
theorem refusedBy_eq_illegalOpcode {a : Agent} {h : Byte} {rest : List Byte} {r : RequestRefusal}
    (hop : opcodeOf (headerOp h) = none) (hr : refusedBy a h rest r) : r = .illegalOpcode := by
  have hbad : refusedBy a h rest .illegalOpcode := (refusedBy_illegalOpcode_iff a h rest).2 hop
  cases r with
  | illegalOpcode => rfl
  | _ => exact absurd hbad hr.1

/-- For a legal opcode the checks over the header's numbers are the decoder's. -/
theorem refusedBy_iff {op : Opcode} {h : Byte} (hop : opcodeOf (headerOp h) = some op) (a : Agent) (rest : List Byte)
    (r : RequestRefusal) : refusedBy a h rest r ↔ RefusedInRow op a h rest r := by
  have hcode : h.toNat / 16 = op.code.toNat := by rw [← headerOp_toNat, opcodeOf_eq_some hop]
  have hlen : ∀ c, OperandsRefused op c rest ↔ lengthFails op.code.toNat rest := fun c => operandsRefused_iff op c rest
  cases r with
  | illegalOpcode => simp [refusedBy_illegalOpcode_iff, hop, RefusedInRow]
  | wrongPort => simp only [refusedBy, RefusedInRow, hcode, port_ne_iff, code_legal op, not_false_iff, true_and]
  | reservedBits =>
    simp only [refusedBy, RefusedInRow, hcode, port_ne_iff, code_legal op, not_false_iff, true_and, ne_eq, not_not,
      headerRsv_eq_zero_iff]
  | channelField =>
    simp only [refusedBy, RefusedInRow, hcode, port_ne_iff, code_legal op, not_false_iff, true_and, ne_eq, not_not,
      headerRsv_eq_zero_iff, ← headerCh_toNat, channelFor_eq_none_iff]
  | length =>
    simp only [refusedBy, RefusedInRow, hcode, port_ne_iff, code_legal op, not_false_iff, true_and, ne_eq, not_not,
      headerRsv_eq_zero_iff, ← headerCh_toNat, channelFor_eq_none_iff, hlen, exists_and_right,
      ← Option.ne_none_iff_exists']

theorem decode_of_illegalOpcode {a : Agent} {h : Byte} {rest : List Byte} (hop : opcodeOf (headerOp h) = none) :
    decode a (h :: rest) = .error .illegalOpcode := by simp [decode, hop]

theorem serve_of_error {a : Agent} {bs : Request} {r : RequestRefusal} (hd : decode a bs = .error r) (s : State) :
    serve a bs s = .next (respond a (.refused r) s) := by simp [serve, hd]

/-- A `CMD` of another length than six is answered as the decoder's refusal for the length is (R175). -/
theorem exec_cmd_of_wrong_length {p : List Byte} (hp : p.length ≠ 6) (s : State) :
    exec (.cmd p) s = .next (respond .c (.refused .length) s) := by
  rcases execCmd_cases p s with ⟨_, _, _, _, _, _, rfl, -⟩ | ⟨-, h⟩
  · exact absurd rfl hp
  · exact h

/-- A failing check is answered with its refusal, and nothing else changes (R85, R90). -/
theorem serve_of_refusedInRow {op : Opcode} {a : Agent} {h : Byte} {rest : List Byte} {r : RequestRefusal}
    (hop : opcodeOf (headerOp h) = some op) (hr : RefusedInRow op a h rest r) (s : State) :
    serve a (h :: rest) s = .next (respond a (.refused r) s) := by
  cases r with
  | illegalOpcode => exact hr.elim
  | wrongPort =>
    have hport : op.port ≠ a := hr
    exact serve_of_error (by simp [decode, hop, hport]) s
  | reservedBits =>
    obtain ⟨hport, hrsv⟩ := hr
    exact serve_of_error (by simp only [decode, hop, hport, ne_eq, not_true, if_false, if_pos hrsv]) s
  | channelField =>
    obtain ⟨hport, hrsv, hch⟩ := hr
    exact serve_of_error (by simp [decode, hop, hport, hrsv, hch]) s
  | length =>
    obtain ⟨hport, hrsv, c, hch, hrest⟩ := hr
    have hd : decode a (h :: rest) = decodeOperands op c rest := by simp [decode, hop, hport, hrsv, hch]
    rcases hrest with ho | ⟨p, ho, hp⟩ <;> rw [← hd] at ho
    · exact serve_of_error ho s
    · obtain rfl : Agent.c = a := decode_port ho
      rw [serve_of_decode ho, exec_cmd_of_wrong_length hp]

/-- The bytes after a header are refused for their length and for nothing else. -/
theorem decodeOperands_error {op : Opcode} {c : Channel} {bs : List Byte} {r : RequestRefusal}
    (h : decodeOperands op c bs = .error r) : r = .length := by
  cases op <;> simp only [decodeOperands] at h
  case cmd =>
    split at h
    · split at h <;> cases h
      rfl
    · exact (Except.error.inj h).symm
  all_goals
    split at h
    · cases h
    · exact (Except.error.inj h).symm

/-- What the decoder refuses, a check of R85 refuses. -/
theorem refusedBy_of_decode_error {a : Agent} {h : Byte} {rest : List Byte} {r : RequestRefusal}
    (hd : decode a (h :: rest) = .error r) : refusedBy a h rest r := by
  cases hop : opcodeOf (headerOp h) with
  | none =>
    obtain rfl := Except.error.inj ((decode_of_illegalOpcode hop).symm.trans hd)
    exact (refusedBy_illegalOpcode_iff a h rest).2 hop
  | some op =>
    rw [refusedBy_iff hop]
    simp only [decode, hop] at hd
    split at hd
    · obtain rfl := Except.error.inj hd
      assumption
    · rename_i hport
      have hport : op.port = a := not_not.1 hport
      split at hd
      · rename_i hrsv
        obtain rfl := Except.error.inj hd
        exact ⟨hport, hrsv⟩
      · rename_i hrsv
        have hrsv : headerRsv h = 0 := not_not.1 hrsv
        split at hd
        · rename_i hch
          obtain rfl := Except.error.inj hd
          exact ⟨hport, hrsv, hch⟩
        · rename_i c hch
          obtain rfl := decodeOperands_error hd
          exact ⟨hport, hrsv, c, hch, .inl hd⟩

/-- Settles O4: the checks over the header's numbers are the decoder's, and a `CMD` that decodes with another length
than six is refused by its meaning. -/
theorem refusalsInOrder : Obligations.RefusalsInOrder := by
  unfold Obligations.RefusalsInOrder
  refine fun a h rest s => ⟨fun r hr => ?_, fun hnone => ?_⟩
  · cases hop : opcodeOf (headerOp h) with
    | none =>
      obtain rfl := refusedBy_eq_illegalOpcode hop hr
      exact serve_of_error (decode_of_illegalOpcode hop) s
    | some op => exact serve_of_refusedInRow hop ((refusedBy_iff hop a rest r).1 hr) s
  · cases hd : decode a (h :: rest) with
    | ok i =>
      obtain ⟨henc, hport, -⟩ := encodeAfterDecode a (h :: rest) i hd
      exact ⟨i, hport, henc, serve_of_decode hd s⟩
    | error r => exact absurd (refusedBy_of_decode_error hd) (hnone r)

end Sys2Proof.Machine

namespace Sys2Proof.Machine

/-! ## Requests and responses byte by byte (R83, R86, R87, R191) -/

/-- Settles O3: each request is decoded as it is written. -/
theorem writtenRequestsDecode : Obligations.WrittenRequestsDecode := by
  unfold Obligations.WrittenRequestsDecode
  decide

/-- Settles O5: each response is its code as it is written. -/
theorem responseBytes : Obligations.ResponseBytes := by
  unfold Obligations.ResponseBytes
  decide

/-- `uint_N` undoes `sint_N` (R10). -/
theorem uint_sint {n : Nat} (v : BitVec n) : uint n (sint v) = v := BitVec.ofInt_toInt

/-- The bytes of a decoded Sample are those the fields were read from. -/
theorem decodeFields_bytes (f : Frame) : (decodeFields f).bytes = [f.f1, f.f2, f.f3, f.f4, f.f5, f.f6, f.f7] := by
  simp [Sample.bytes, decodeFields, uint_sint, wordBytes_word, halfBytes_half]

theorem decodeFrame_eq_some {f : Frame} {smp : Sample} :
    decodeFrame f = some smp ↔ f.f9 = checksum8 f ∧ decodeFields f = smp := by
  simp [decodeFrame]

/-- Settles O6: each field goes back to the bytes it was read from. -/
theorem sampleBytesAreFrameBytes : Obligations.SampleBytesAreFrameBytes := by
  unfold Obligations.SampleBytesAreFrameBytes
  intro f smp h
  obtain ⟨-, rfl⟩ := decodeFrame_eq_some.1 h
  exact congrArg (0x20 :: ·) (decodeFields_bytes f)

/-- Four bytes appended one after another are the 32-bit pattern of R10. -/
theorem append_bytes_eq_word (b3 b2 b1 b0 : Byte) : b3 ++ b2 ++ b1 ++ b0 = word b3 b2 b1 b0 :=
  BitVec.append_assoc (x₁ := b3 ++ b2) (x₂ := b1) (x₃ := b0)

/-- Settles O33: the formula for byte 9 is Checksum8, and the fields are those of R73. -/
theorem decAnswers : Obligations.DecAnswers := by
  unfold Obligations.DecAnswers
  refine fun s f => ⟨fun h => ?_, fun h => ?_⟩
  · rw [append_bytes_eq_word]
    exact congrArg Host.Outcome.next (decodeResponse_of_valid h s)
  · exact congrArg Host.Outcome.next (decodeResponse_of_invalid h s)

/-! ## The leg outputs (R80) -/

/-- The output of a driven leg is mode 2 above its duty. -/
theorem output_pwm_toNat (d : Half) : (Leg.pwm d).output.toNat = 2 * 65536 + d.toNat := by
  rw [Leg.output, BitVec.toNat_append, ← Nat.shiftLeft_add_eq_or_of_lt d.isLt]
  rfl

/-- Settles O41: the mode stands above the sixteen bits of the duty. -/
theorem legOutputBits : Obligations.LegOutputBits := by
  unfold Obligations.LegOutputBits
  exact ⟨rfl, rfl, rfl, rfl, output_pwm_toNat, rfl⟩

/-! ## The reset input (R77, R220) -/

/-- Settles O50: the turn is the reset step, which writes each field as listed. -/
theorem resetInput : Obligations.ResetInput := by
  unfold Obligations.ResetInput
  intro s dropP dropC rest ht
  exact ⟨resetStep dropP dropC { s with turns := rest }, step_of_turn ht, rfl, rfl, rfl, rfl, fun _ => rfl, rfl, rfl,
    rfl, rfl, rfl⟩

/-! ## A request word placed for the next step (R81, R82) -/

theorem decode_of_decodeTableWord {nbits w : Nat} {i : Instr} (h : decodeTableWord nbits w = some i) :
    decode (requestPort (requestOfWord nbits w)) (requestOfWord nbits w) = .ok i := by
  unfold decodeTableWord at h
  split at h
  · rename_i j hj
    rw [hj, Option.some.inj h]
  · cases h

/-- Settles O10: the word stands in front on the port of its operation, and the turn is that agent's. -/
theorem placedWordRuns : Obligations.PlacedWordRuns := by
  unfold Obligations.PlacedWordRuns
  intro s nbits w i h
  have hd := decode_of_decodeTableWord h
  have hport : i.port = requestPort (requestOfWord nbits w) := decode_port hd
  refine ⟨fun hp => ?_, fun hc => ?_⟩
  · rw [hport] at hp
    rw [hp] at hd
    simp only [State.withFetchWord, placeRequest, hp]
    exact (turnServesRequest _ _ _ _ _).1 rfl rfl hd
  · rw [hport] at hc
    rw [hc] at hd
    simp only [State.withFetchWord, placeRequest, hc]
    exact (turnServesRequest _ _ _ _ _).2 rfl rfl rfl hd

end Sys2Proof.Machine

namespace Sys2Proof.Machine

/-! ## What each step does to the requests and responses of its port (R78, R88, R89) -/

/-- The responses an operation in progress can still end with (R88). -/
def Work.mayAnswer : Work → Response → Prop
  | .release _, r => (∃ smp, r = .sample smp) ∨ r = .error .checksum
  | .legs _ _ _, r => r = .ok
  | .clearCount, r => r = .ok

/-- From `s` to `t` a step of an operation gives one response, which meets `P`, or leaves work in progress whose
response will meet `P`. -/
def Answers (P : Response → Prop) (s t : State) : Prop :=
  (∃ r, P r ∧ t.cWork = s.cWork ∧ t.cOut = s.cOut ++ [r]) ∨
    ∃ w : Work, (∀ r, w.mayAnswer r → P r) ∧ t.cWork = w :: s.cWork ∧ t.cOut = s.cOut

theorem answers_respond {P : Response → Prop} {r : Response} (hr : P r) (s : State) : Answers P s (respond .c r s) :=
  .inl ⟨r, hr, rfl, rfl⟩

theorem answers_pushWork {P : Response → Prop} {w : Work} (hw : ∀ r, w.mayAnswer r → P r) (s : State) :
    Answers P s (pushWork w s) := .inr ⟨w, hw, rfl, rfl⟩

theorem answers_decodeResponse {P : Response → Prop} (hP : ∀ r, ((∃ smp, r = .sample smp) ∨ r = .error .checksum) → P r)
    (f : Frame) (s : State) : Answers P s (decodeResponse f s) := by
  obtain ⟨r, h, hr⟩ := decodeResponse_eq_respond f s
  exact h ▸ answers_respond (hP r hr) s

/-- Leg writes end with `Ok`, whatever is left of them to do. -/
theorem answers_afterWrites {P : Response → Prop} (hP : P .ok) (ws : List LegWrite) (clears : Bool) (s : State) :
    Answers P s (afterWrites ws clears s) := by
  rcases afterWrites_cases ws clears s with ⟨w, h, ⟨lw, rest, -, rfl⟩ | ⟨-, -, rfl⟩⟩ | ⟨-, -, h⟩ <;> rw [h]
  · exact answers_pushWork (fun r hr => hr ▸ hP) s
  · exact answers_pushWork (fun r hr => hr ▸ hP) s
  · exact answers_respond hP s

theorem answers_startWrites {P : Response → Prop} (hP : P .ok) (ws : List LegWrite) (clears : Bool) (s : State) :
    Answers P s (startWrites ws clears s) := by
  cases ws with
  | nil => exact answers_afterWrites hP [] clears s
  | cons w ws => exact answers_afterWrites hP ws clears (legWrite w s)

theorem answers_acquire (c : Channel) (s : State) : Answers (possibleResponse (.trs c)) s (acquire c s) := by
  rcases acquire_cases c s with ⟨-, h⟩ | ⟨-, h⟩ | ⟨-, h⟩ <;> rw [h]
  · exact answers_pushWork (w := .release c) (fun r hr => .inr (hr.imp_right .inl)) (setState c .reading s)
  · exact answers_respond (.inl rfl) s
  · exact answers_respond (P := possibleResponse (.trs c)) (.inr (.inr (.inr rfl))) (setState c .idle s)

/-- The first step of an operation of agent C answers with a response of its row of R88, or leaves work that will. -/
theorem answers_exec {i : Instr} (hi : i.port = .c) {s t : State} (h : exec i s = .next t) :
    Answers (possibleResponse i) s t := by
  cases i with
  | wrb c b => cases hi
  | trs c =>
    obtain rfl := Host.Outcome.next.inj h
    exact answers_acquire c s
  | dec f =>
    obtain rfl := Host.Outcome.next.inj h
    exact answers_decodeResponse (fun _ hr => hr) f s
  | set c v =>
    obtain rfl := Host.Outcome.next.inj h
    exact answers_startWrites (P := possibleResponse (.set c v)) rfl (setWrites c v) false s
  | fsafe =>
    obtain rfl := Host.Outcome.next.inj h
    exact answers_startWrites (P := possibleResponse .fsafe) rfl failSafeWrites false s
  | tick =>
    obtain rfl := Host.Outcome.next.inj h
    exact answers_afterWrites (P := possibleResponse .tick) rfl _ false (setCount (incSat Config.params s.wd) s)
  | cmd p =>
    rcases execCmd_cases p s with ⟨p0, p1, p2, p3, p4, p5, rfl, he⟩ | ⟨hp, he⟩ <;>
      obtain rfl := Host.Outcome.next.inj (he.symm.trans h)
    · exact answers_startWrites (.inl ⟨rfl, rfl⟩) _ true s
    · exact answers_respond (.inr ⟨hp, rfl⟩) s

theorem answers_continueWork {w : Work} {s t : State} (h : continueWork w s = .next t) : Answers w.mayAnswer s t := by
  rcases continueWork_next h with ⟨c, f, rfl, -, -, rfl⟩ | ⟨lw, rest, clears, rfl, rfl⟩ | ⟨rfl, rfl⟩
  · exact answers_decodeResponse (fun _ hr => hr) f (setState c .idle s)
  · exact answers_afterWrites (P := (Work.legs lw rest clears).mayAnswer) rfl rest clears (legWrite lw s)
  · exact answers_respond (P := Work.clearCount.mayAnswer) rfl (setCount 0 s)

@[simp] theorem acquire_cIn (c : Channel) (s : State) : (acquire c s).cIn = s.cIn := by
  rcases acquire_cases c s with ⟨-, h⟩ | ⟨-, h⟩ | ⟨-, h⟩ <;> simp [h]

@[simp] theorem tickStep_cIn (p : Params) (s : State) : (tickStep p s).cIn = s.cIn := by simp [tickStep]

/-- An operation takes no request from the port. -/
theorem exec_c_cIn {i : Instr} (hi : i.port = .c) {s t : State} (h : exec i s = .next t) : t.cIn = s.cIn := by
  rcases exec_c_cases hi s with ⟨c, -, he⟩ | ⟨f, -, he⟩ | ⟨w, ws, clears, -, -, -, he⟩ | ⟨-, he⟩ | ⟨p, -, -, he⟩ <;>
    obtain rfl := Host.Outcome.next.inj (he.symm.trans h) <;> simp

theorem continueWork_cIn {w : Work} {s t : State} (h : continueWork w s = .next t) : t.cIn = s.cIn := by
  rcases continueWork_next h with ⟨c, f, -, -, -, rfl⟩ | ⟨lw, rest, clears, -, rfl⟩ | ⟨-, rfl⟩ <;> simp

/-- `WRB` answers once, with a response of its row of R88. -/
theorem wrbStep_answers {p : Params} {c : Channel} {b : Byte} {s t : State} (h : wrbStep p c b s = .next t) :
    ∃ r, possibleResponse (.wrb c b) r ∧ t.pOut = s.pOut ++ [r] := by
  rcases wrbStep_next h with ⟨-, rfl⟩ | ⟨-, -, -, rfl⟩ | ⟨-, -, hi, rfl⟩
  · exact ⟨_, .inr (.inr rfl), rfl⟩
  · exact ⟨_, .inr (.inl rfl), rfl⟩
  · exact ⟨_, .inl rfl, by simp⟩

/-! ## One response per request (R78) -/

/-- The requests waiting on the P port and the responses given on it. -/
def pCount (s : State) : Nat := s.pIn.length + s.pOut.length

/-- The requests waiting on the C port, the operations in progress and the responses given on it. -/
def cCount (s : State) : Nat := s.cIn.length + s.cWork.length + s.cOut.length

/-- A step of an operation adds the operation in progress or the response. -/
theorem Answers.cCount_eq {P : Response → Prop} {s t : State} (h : Answers P s t) (hin : t.cIn = s.cIn) :
    cCount t = cCount s + 1 := by
  rcases h with ⟨r, -, hwork, hout⟩ | ⟨w, -, hwork, hout⟩ <;> simp [cCount, hin, hwork, hout] <;> omega

theorem pStep_pCount {s t : State} (h : pStep s = .next t) : pCount t = pCount s := by
  rcases pStep_next h with ⟨-, rfl⟩ | ⟨bs, rest, hp, ⟨r, -, rfl⟩ | ⟨c, b, -, hw⟩⟩
  · rfl
  · simp [pCount, hp]
    omega
  · obtain ⟨-, -, -, hin, -⟩ := wrbStep_sameOutsideBuffers hw
    obtain ⟨r, -, hout⟩ := wrbStep_answers hw
    simp [pCount, hin, hout, hp]
    omega

theorem cStep_cCount {s t : State} (h : cStep s = .next t) : cCount t = cCount s := by
  rcases cStep_next h with ⟨-, -, rfl⟩ | ⟨w, ws, hw, hc⟩ | ⟨bs, rest, hw, hin, ⟨r, -, rfl⟩ | ⟨i, -, hi, he⟩⟩
  · rfl
  · rw [(answers_continueWork hc).cCount_eq (continueWork_cIn hc)]
    simp [cCount, hw]
    omega
  · simp [cCount, hin]
    omega
  · rw [(answers_exec hi he).cCount_eq (exec_c_cIn hi he)]
    simp [cCount, hin]
    omega

/-- Settles O11: each agent's step keeps the count of its own port and does not touch the other's. -/
theorem oneResponsePerRequest : Obligations.OneResponsePerRequest := by
  unfold Obligations.OneResponsePerRequest
  intro s t hn h
  change pCount t = pCount s ∧ cCount t = cCount s
  obtain ⟨turns, n, hp | hc | ⟨dropP, dropC, rest, hr, -⟩ | rfl⟩ := step_next h
  · obtain ⟨-, -, hwork, hin, hout, -⟩ := producerTouchesOnlyBuffers _ _ hp
    exact ⟨pStep_pCount (s := { s with turns := turns, freeTurns := n }) hp, by simp [cCount, hwork, hin, hout]⟩
  · obtain ⟨-, -, hin, hout, -, -⟩ := consumerFrame_cStep hc
    exact ⟨by simp [pCount, hin, hout], cStep_cCount (s := { s with turns := turns, freeTurns := n }) hc⟩
  · exact absurd hr (hn dropP dropC rest)
  · exact ⟨rfl, rfl⟩

end Sys2Proof.Machine

namespace Sys2Proof.Machine

/-! ## The response of a whole operation (R88) -/

theorem cRun_of_quiet {s : State} (h : s.cQuiet) (n : Nat) : cRun n s = .next s := by
  induction n with
  | zero => rfl
  | succ n ih => rw [cRun, cStep_of_quiet h, andThen_of_next, ih]

/-- An operation in progress, given the steps it has left, ends with one response of those it can give. -/
theorem cRun_answers {w : Work} {n : Nat} {s t : State} (hw : s.cWork = [w]) (hin : s.cIn = [])
    (hn : w.remaining ≤ n) (h : cRun n s = .next t) :
    ∃ r, w.mayAnswer r ∧ t.cOut = s.cOut ++ [r] ∧ t.pOut = s.pOut := by
  induction n generalizing w s with
  | zero => exact absurd hn (Nat.not_le.2 w.remaining_pos)
  | succ n ih =>
    obtain ⟨u, hu, hrest⟩ := andThen_next.1 h
    have hp : u.pOut = s.pOut := (consumerFrame_cStep hu).pOut
    rw [cStep_of_work hw] at hu
    have huin : u.cIn = [] := (continueWork_cIn hu).trans hin
    rcases answers_continueWork hu with ⟨r, hr, hwork, hout⟩ | ⟨w', hsub, hwork, hout⟩
    · rw [cRun_of_quiet ⟨hwork, huin⟩] at hrest
      obtain rfl := Host.Outcome.next.inj hrest
      exact ⟨r, hr, hout, hp⟩
    · have hw' : w'.remaining ≤ n := by
        obtain ⟨k, hk, ⟨-, hnil, -⟩ | ⟨w'', rfl, hcons, -⟩⟩ := stepsLeft_continueWork hu
        · simp [hnil] at hwork
        · obtain rfl : w'' = w' := by simpa [hwork] using hcons.symm
          omega
      obtain ⟨r, hr, htout, htp⟩ := ih hwork huin hw' hrest
      exact ⟨r, hsub r hr, by rw [htout, hout], htp.trans hp⟩

/-- A whole operation of agent C gives one response of its row. -/
theorem runOp_c_answers {i : Instr} (hi : i.port = .c) {s t : State} (hs : s.cQuiet) (h : runOp i s = .next t) :
    ∃ r, possibleResponse i r ∧ t.cOut = s.cOut ++ [r] ∧ t.pOut = s.pOut := by
  obtain ⟨hnil, hin⟩ := hs
  obtain ⟨u, hu, hrest⟩ := andThen_next.1 h
  have hp : u.pOut = s.pOut := (consumerFrame_exec hi hu).pOut
  have huin : u.cIn = [] := (exec_c_cIn hi hu).trans hin
  rcases answers_exec hi hu with ⟨r, hr, hwork, hout⟩ | ⟨w, hsub, hwork, hout⟩
  · rw [cRun_of_quiet ⟨hwork.trans hnil, huin⟩] at hrest
    obtain rfl := Host.Outcome.next.inj hrest
    exact ⟨r, hr, hout, hp⟩
  · have hw : w.remaining ≤ 6 := by
      rcases operationsAreBounded.1 i s u hu with hsame | ⟨w', hcons, hle⟩
      · simp [hsame] at hwork
      · obtain rfl : w' = w := by simpa [hwork] using hcons.symm
        exact hle
    rw [hnil] at hwork
    obtain ⟨r, hr, htout, htp⟩ := cRun_answers hwork huin hw hrest
    exact ⟨r, hsub r hr, by rw [htout, hout], htp.trans hp⟩

/-- A whole `WRB` is its one step, which answers on the P port. -/
theorem runOp_wrb_answers {c : Channel} {b : Byte} {s t : State} (hs : s.cQuiet) (h : runOp (.wrb c b) s = .next t) :
    ∃ r, possibleResponse (.wrb c b) r ∧ t.pOut = s.pOut ++ [r] ∧ t.cOut = s.cOut := by
  obtain ⟨hnil, hin⟩ := hs
  obtain ⟨u, hu, hrest⟩ := andThen_next.1 h
  have hw : wrbStep Config.params c b s = .next u := hu
  obtain ⟨-, -, hwork, -, huin, hout, -⟩ := wrbStep_sameOutsideBuffers hw
  obtain ⟨r, hr, hpout⟩ := wrbStep_answers hw
  rw [cRun_of_quiet ⟨hwork.trans hnil, huin.trans hin⟩] at hrest
  obtain rfl := Host.Outcome.next.inj hrest
  exact ⟨r, hr, hpout, hout⟩

/-- Settles O12: `WRB` answers in its one step, and agent C's operations in the last of at most seven. -/
theorem responsesOfTheTable : Obligations.ResponsesOfTheTable := by
  unfold Obligations.ResponsesOfTheTable
  intro i s t hs h
  cases hi : i.port with
  | p =>
    obtain ⟨c, b, rfl⟩ := port_p hi
    obtain ⟨r, hr, hpout, hout⟩ := runOp_wrb_answers hs h
    exact ⟨r, hr, fun _ => ⟨hpout, hout⟩, nofun⟩
  | c =>
    obtain ⟨r, hr, hout, hpout⟩ := runOp_c_answers hi hs h
    exact ⟨r, hr, nofun, fun _ => ⟨hout, hpout⟩⟩

end Sys2Proof.Machine

namespace Sys2Proof.Machine

/-! ## Agent P and the actuation of agent C (R59, R78) -/

/-- The state `s` with what agent C's leg writes and counter clears touch as it stands in `u`. -/
def withActuationOf (u s : State) : State := { s with mc := u.mc, wd := u.wd, cWork := u.cWork, cOut := u.cOut }

theorem storeByte_withActuationOf (c : Channel) (i : Fin 10) (b : Byte) (u s : State) :
    storeByte c i b (withActuationOf u s) = withActuationOf u (storeByte c i b s) := by
  have hb : (withActuationOf u s).buf c = s.buf c := rfl
  unfold storeByte advance casState
  rw [hb]
  split <;> split <;> rfl

theorem acceptByte_withActuationOf (p : Params) (c : Channel) (i : Fin 10) (b : Byte) (u s : State) :
    acceptByte p c i b (withActuationOf u s) = withActuationOf u (acceptByte p c i b s) := by
  unfold acceptByte
  rw [storeByte_withActuationOf]
  split <;> rfl

theorem wrbStep_withActuationOf (p : Params) (c : Channel) (b : Byte) (u s : State) :
    wrbStep p c b (withActuationOf u s) = andThen (wrbStep p c b s) fun t => .next (withActuationOf u t) := by
  have hb : (withActuationOf u s).buf c = s.buf c := rfl
  unfold wrbStep
  simp only [hb, acceptByte_withActuationOf]
  split
  · rfl
  · split <;> rfl

theorem serve_p_withActuationOf (bs : Request) (u s : State) :
    serve .p bs (withActuationOf u s) = andThen (serve .p bs s) fun t => .next (withActuationOf u t) := by
  cases hd : decode .p bs with
  | ok i =>
    obtain ⟨c, b, rfl⟩ := port_p (decode_port hd)
    rw [serve_of_decode hd, serve_of_decode hd]
    exact wrbStep_withActuationOf Config.params c b u s
  | error r =>
    rw [serve_of_error hd, serve_of_error hd]
    rfl

/-- A step of agent P neither looks at nor changes what the actuation of agent C touches. -/
theorem pStep_withActuationOf (u s : State) :
    pStep (withActuationOf u s) = andThen (pStep s) fun t => .next (withActuationOf u t) := by
  cases hp : s.pIn with
  | nil =>
    rw [pStep_of_quiet hp, pStep_of_quiet (s := withActuationOf u s) hp]
    rfl
  | cons bs rest =>
    rw [pStep_of_request hp, pStep_of_request (s := withActuationOf u s) hp]
    exact serve_p_withActuationOf bs u { s with pIn := rest }

/-- A leg write or counter clear depends on nothing but what the actuation touches, and changes nothing else. -/
theorem cStep_of_actuation {s : State} {w : Work} {ws : List Work} (hw : s.cWork = w :: ws)
    (hrel : ∀ c, w ≠ .release c) :
    ∃ u, ∀ t : State, t.mc = s.mc → t.wd = s.wd → t.cWork = s.cWork → t.cOut = s.cOut →
      cStep t = .next (withActuationOf u t) := by
  cases w with
  | release c => exact absurd rfl (hrel c)
  | legs lw rest clears =>
    refine ⟨performWrite lw rest clears { s with cWork := ws }, fun t hmc hwd hwork hout => ?_⟩
    rw [cStep_of_work (hwork.trans hw)]
    rcases rest with _ | ⟨lw', rest⟩ <;> cases clears <;>
      simp [continueWork, withActuationOf, hmc, hwd, hout, legWrite, pushWork, respond]
  | clearCount =>
    refine ⟨clearStep { s with cWork := ws }, fun t hmc hwd hwork hout => ?_⟩
    rw [cStep_of_work (hwork.trans hw)]
    simp [continueWork, withActuationOf, clearStep, setCount, respond, hmc, hout]

/-- Settles O16: the actuation writes what agent P neither reads nor writes, and reads nothing that agent P writes. -/
theorem producerCommutesWithActuation : Obligations.ProducerCommutesWithActuation := by
  unfold Obligations.ProducerCommutesWithActuation
  intro s w ws hw hrel
  obtain ⟨u, hu⟩ := cStep_of_actuation hw hrel
  rw [hu s rfl rfl rfl rfl, andThen_of_next, pStep_withActuationOf]
  cases hp : pStep s with
  | next t =>
    obtain ⟨hmc, hwd, hwork, -, hout, -⟩ := producerTouchesOnlyBuffers s t hp
    exact hu t hmc hwd hwork hout
  | fault r => rfl
  | refused r => rfl

end Sys2Proof.Machine

namespace Sys2Proof.Machine

/-! ## A run of leg writes (R152, R156, R175) -/

/-- The motor channels after the leg writes `ws`, the first of the list first. -/
def applyWrites (ws : List LegWrite) (mc : PerChannel MotorChannel) : PerChannel MotorChannel :=
  ws.foldl (fun mc w => applyWrite w mc) mc

@[simp] theorem applyWrites_nil (mc : PerChannel MotorChannel) : applyWrites [] mc = mc := rfl

@[simp] theorem applyWrites_cons (w : LegWrite) (ws : List LegWrite) (mc : PerChannel MotorChannel) :
    applyWrites (w :: ws) mc = applyWrites ws (applyWrite w mc) := rfl

@[simp] theorem applyWrites_append (ws ws' : List LegWrite) (mc : PerChannel MotorChannel) :
    applyWrites (ws ++ ws') mc = applyWrites ws' (applyWrites ws mc) := List.foldl_append

/-- The step after work is left is the next step of that work. -/
theorem cStep_pushWork (w : Work) (s : State) : cStep (pushWork w s) = continueWork w s :=
  cStep_of_work (s := pushWork w s) rfl

/-- As many steps of agent C as there are leg writes left perform them all. -/
theorem cRun_afterWrites (ws : List LegWrite) (clears : Bool) (s : State) :
    cRun ws.length (afterWrites ws clears s) = .next (afterWrites [] clears { s with mc := applyWrites ws s.mc }) := by
  induction ws generalizing s with
  | nil => rfl
  | cons w ws ih =>
    have hstep : cStep (afterWrites (w :: ws) clears s) = .next (afterWrites ws clears (legWrite w s)) :=
      cStep_pushWork (.legs w ws clears) s
    rw [List.length_cons, cRun, hstep, andThen_of_next, ih]
    rfl

/-- The first write is the operation's first step, the others are performed by the steps after it. -/
theorem cRun_startWrites {ws : List LegWrite} {n : Nat} (hn : ws.length = n + 1) (clears : Bool) (s : State) :
    cRun n (startWrites ws clears s) = .next (afterWrites [] clears { s with mc := applyWrites ws s.mc }) := by
  cases ws with
  | nil => cases hn
  | cons w ws =>
    obtain rfl : ws.length = n := Nat.succ.inj hn
    exact cRun_afterWrites ws clears (legWrite w s)

/-- The two writes of a `SET` leave the legs of R154 on its channel and the other channels as they were. -/
theorem applyWrites_setWrites (c : Channel) (v : Half) (mc : PerChannel MotorChannel) :
    applyWrites (setWrites c v) mc = mc.put c (commandedLegs v.toInt) := by
  rcases setWrites_eq c v with ⟨hv, h⟩ | ⟨hv, h⟩ | ⟨hv, h⟩ <;> rw [h] <;> unfold sint at hv
  · simp [applyWrite, MotorChannel.putLeg, commandedLegs, hv]
  · have hne : v.toInt ≠ 0 := by omega
    simp [applyWrite, MotorChannel.putLeg, commandedLegs, hv, hne, duty, sint]
  · have hne : v.toInt ≠ 0 := by omega
    have hnot : ¬ 0 < v.toInt := by omega
    simp [applyWrite, MotorChannel.putLeg, commandedLegs, hnot, hne, duty, sint]

theorem setWrites_length (c : Channel) (v : Half) : (setWrites c v).length = 2 := by
  obtain ⟨w1, w2, h⟩ := setWrites_two c v
  rw [h]
  rfl

theorem commandWrites_length (v0 v1 v2 : Half) : (commandWrites v0 v1 v2).length = 6 := by
  simp [commandWrites, setWrites_length]

/-- The six writes of a `CMD` leave the legs of R154 on each channel. -/
theorem applyWrites_commandWrites (v0 v1 v2 : Half) (mc : PerChannel MotorChannel) :
    applyWrites (commandWrites v0 v1 v2) mc =
      ⟨commandedLegs v0.toInt, commandedLegs v1.toInt, commandedLegs v2.toInt⟩ := by
  simp only [commandWrites, applyWrites_append, applyWrites_setWrites]
  rfl

/-- Settles O46: after the six leg writes the counter clear is left, and it ends the operation. -/
theorem cmdSetsAndClears : Obligations.CmdSetsAndClears := by
  unfold Obligations.CmdSetsAndClears
  intro s p0 p1 p2 p3 p4 p5
  have hrun := cRun_startWrites (commandWrites_length (p0 ++ p1) (p2 ++ p3) (p4 ++ p5)) true s
  refine ⟨_, _, _, rfl, hrun, cStep_pushWork .clearCount _, applyWrites_commandWrites _ _ _ _, ?_⟩
  exact ⟨rfl, rfl, rfl, rfl, rfl, rfl, rfl, fun _ => rfl, rfl, rfl, rfl, rfl, rfl⟩

end Sys2Proof.Machine

/-! PROOFS. The family "telemetry buffer": `WRB` row by row, the two steps of `TRS`, the read window, and the delivery
of a frame. -/

namespace Sys2Proof.Machine

/-! ## The rows of `WRB` (R101 to R104, R108) -/

theorem exec_wrb (c : Channel) (b : Byte) (s : State) : exec (.wrb c b) s = wrbStep Config.params c b s := rfl

theorem wrbIndex_of_idle {t : TelemetryBuffer} (h : t.state = .idle) : wrbIndex t = 0 := if_pos h

theorem wrbIndex_of_writing {t : TelemetryBuffer} (h : t.state = .writing) : wrbIndex t = t.cursor := by
  simp [wrbIndex, h]

/-- The two rows of R101 in which a byte begins a frame. -/
theorem accepts_at_zero {t : TelemetryBuffer} (h : t.state = .idle ∨ (t.state = .writing ∧ t.cursor = 0)) :
    (t.state = .idle ∨ t.state = .writing) ∧ wrbIndex t = 0 := by
  rcases h with hi | ⟨hw, h0⟩
  · exact ⟨.inl hi, wrbIndex_of_idle hi⟩
  · exact ⟨.inr hw, (wrbIndex_of_writing hw).trans h0⟩

theorem wrbStep_of_unread {p : Params} {c : Channel} {b : Byte} {s : State}
    (h : (s.buf c).state = .doneWriting ∨ (s.buf c).state = .reading) :
    wrbStep p c b s = .next (respond .p (.error .overrun) (setCursor c 0 s)) := by simp [wrbStep, h]

theorem wrbStep_of_accepting {p : Params} {c : Channel} {i : Fin 10} {b : Byte} {s : State}
    (h : (s.buf c).state = .idle ∨ (s.buf c).state = .writing) (hi : (wrbIndex (s.buf c)).toNat = i.val) :
    wrbStep p c b s = .next (acceptByte p c i b s) := by
  have hnot : ¬ ((s.buf c).state = .doneWriting ∨ (s.buf c).state = .reading) := by
    rcases h with h | h <;> simp [h]
  simp [wrbStep, hnot, hi]

theorem wrbStep_of_framing {p : Params} {c : Channel} {b : Byte} {s : State}
    (h : (s.buf c).state = .idle ∨ (s.buf c).state = .writing) (h0 : wrbIndex (s.buf c) = 0)
    (hb : b ≠ p.startMarker) :
    wrbStep p c b s = .next (respond .p (.error .framing) (setCursor c 0 s)) := by
  rw [wrbStep_of_accepting (i := 0) h (by simp [h0])]
  simp [acceptByte, hb]

theorem wrbStep_of_stored {p : Params} {c : Channel} {i : Fin 10} {b : Byte} {s : State}
    (h : (s.buf c).state = .idle ∨ (s.buf c).state = .writing) (hi : (wrbIndex (s.buf c)).toNat = i.val)
    (hb : i.val = 0 → b = p.startMarker) : wrbStep p c b s = .next (respond .p .ok (storeByte c i b s)) := by
  have hnot : ¬ (i.val = 0 ∧ b ≠ p.startMarker) := fun hz => hz.2 (hb hz.1)
  rw [wrbStep_of_accepting h hi, acceptByte, if_neg hnot]

theorem wrbStep_of_bad_cursor {p : Params} {c : Channel} {b : Byte} {s : State} (h : (s.buf c).state = .writing)
    (hc : 10 ≤ (s.buf c).cursor.toNat) : wrbStep p c b s = .fault .badCursor := by
  have hi : ¬ (wrbIndex (s.buf c)).toNat < 10 := by rw [wrbIndex_of_writing h]; omega
  simp [wrbStep, h, hi]

/-- The rows of R108 that answer `Ok`: byte `n` of the frame is stored, and nothing outside the buffer and its byte
changes but the answer. -/
theorem wrb_stores {c : Channel} {n : Nat} {b : Byte} {s : State} (hn : n < 10)
    (h : (s.buf c).state = .idle ∨ (s.buf c).state = .writing) (hi : (wrbIndex (s.buf c)).toNat = n)
    (hb : n = 0 → b = Config.params.startMarker) :
    ∃ t, exec (.wrb c b) s = .next t ∧
      t.buf c = (if n = 9 then ⟨.doneWriting, 0⟩ else ⟨.writing, BitVec.ofNat 4 (n + 1)⟩) ∧
      Memory.read t.mem (frameAddr c n) = some b ∧ sameBytesBut (frameAddr c n) s t ∧
      (∀ d, d ≠ c → t.buf d = s.buf d) ∧ t.pOut = s.pOut ++ [.ok] ∧ sameOutsideBuffers s t := by
  have hstep : exec (.wrb c b) s = .next (respond .p .ok (storeByte c ⟨n, hn⟩ b s)) := wrbStep_of_stored h hi hb
  obtain ⟨hbytes, hne, hout, -⟩ := wrbFrame s _ c b hstep
  refine ⟨_, hstep, ?_, ?_, hi ▸ hbytes, hne, by simp, hout⟩
  · rw [respond_buf, storeByte_buf_same h]
  · rw [respond_mem, storeByte_mem, Memory.read_write_same]

/-- The rows of R108 that answer an error: the byte is lost and only the cursor is put back to 0. -/
theorem wrb_loses {c : Channel} {b : Byte} {e : ErrorKind} {s : State}
    (h : exec (.wrb c b) s = .next (respond .p (.error e) (setCursor c 0 s))) :
    ∃ t, exec (.wrb c b) s = .next t ∧ t.buf c = ⟨(s.buf c).state, 0⟩ ∧ t.mem = s.mem ∧
      (∀ d, d ≠ c → t.buf d = s.buf d) ∧ t.pOut = s.pOut ++ [.error e] ∧ sameOutsideBuffers s t := by
  obtain ⟨-, hne, hout, -⟩ := wrbFrame s _ c b h
  exact ⟨_, h, by simp, by simp, hne, by simp, hout⟩

/-- Settles O17: the start marker is the one byte that index 0 takes. -/
theorem wrbStartsFrame : Obligations.WrbStartsFrame := by
  unfold Obligations.WrbStartsFrame
  intro s c h
  obtain ⟨hs, h0⟩ := accepts_at_zero h
  exact wrb_stores (n := 0) (by decide) hs (by rw [h0]; rfl) fun _ => rfl

/-- Settles O18: the index is the cursor, and past index 0 no byte is tested. -/
theorem wrbStoresByte : Obligations.WrbStoresByte := by
  unfold Obligations.WrbStoresByte
  intro s c b hs h1 h8
  have hi : (wrbIndex (s.buf c)).toNat = (s.buf c).cursor.toNat := by rw [wrbIndex_of_writing hs]
  obtain ⟨t, ht, hbuf, hrest⟩ := wrb_stores (b := b) (by omega) (.inr hs) hi (by omega)
  rw [if_neg (by omega)] at hbuf
  refine ⟨t, ht, by rw [hbuf], ?_, hrest⟩
  rw [hbuf, BitVec.toNat_ofNat]
  omega

/-- Settles O19: index 9 is the last. -/
theorem wrbCompletesFrame : Obligations.WrbCompletesFrame := by
  unfold Obligations.WrbCompletesFrame
  intro s c b hs h9
  exact wrb_stores (n := 9) (by decide) (.inr hs) (by rw [wrbIndex_of_writing hs, h9]; rfl) nofun

/-- Settles O20: index 0 takes no other byte. -/
theorem wrbFraming : Obligations.WrbFraming := by
  unfold Obligations.WrbFraming
  intro s c b hb h
  obtain ⟨hs, h0⟩ := accepts_at_zero h
  exact wrb_loses (wrbStep_of_framing hs h0 hb)

/-- Settles O21: the state test comes before every other. -/
theorem wrbOverrun : Obligations.WrbOverrun := by
  unfold Obligations.WrbOverrun
  exact fun s c b h => wrb_loses (wrbStep_of_unread h)

/-- Settles O22: in every other state the byte has an index below 10 or is not looked at. -/
theorem wrbStopsOnBadCursor : Obligations.WrbStopsOnBadCursor := by
  unfold Obligations.WrbStopsOnBadCursor
  exact fun s c b => ⟨fun ⟨hs, hc⟩ => wrbStep_of_bad_cursor hs hc, wrbStep_total⟩

end Sys2Proof.Machine

namespace Sys2Proof.Machine

/-! ## The two steps of `TRS` (R105 to R107) -/

theorem exec_trs (c : Channel) (s : State) : exec (.trs c) s = .next (acquire c s) := rfl

theorem setState_setState (c : Channel) (v w : BufState) (s : State) :
    setState c w (setState c v s) = setState c w s := by
  simp [setState, State.buf]

/-- The storage of a channel reads the same when its bytes do. -/
theorem readFrame_congr {s t : State} {c : Channel} {f : Frame} (hf : readFrame s c = some f)
    (h : ∀ i, i < 10 → Memory.read t.mem (frameAddr c i) = Memory.read s.mem (frameAddr c i)) :
    readFrame t c = some f :=
  readFrame_eq_some.2 fun i hi => (h i hi).trans (readFrame_eq_some.1 hf i hi)

/-- The release step in the read window (R107). -/
theorem cStep_of_release {c : Channel} {ws : List Work} {f : Frame} {s : State} (hw : s.cWork = .release c :: ws)
    (hs : (s.buf c).state = .reading) (hf : readFrame s c = some f) :
    cStep s = .next (decodeResponse f (setState c .idle { s with cWork := ws })) := by
  rw [cStep_of_work hw]
  exact release_next.2 ⟨hs, f, hf, rfl⟩

/-- The two steps of a `TRS` on a complete frame change nothing but the state of the buffer and the response. -/
theorem cStep_acquire_doneWriting {c : Channel} {f : Frame} {s : State} (hs : (s.buf c).state = .doneWriting)
    (hf : readFrame s c = some f) : cStep (acquire c s) = .next (decodeResponse f (setState c .idle s)) := by
  rw [acquire_doneWriting hs, cStep_pushWork, ← setState_setState c .reading .idle s]
  exact release_next.2 ⟨by simp, f, hf, rfl⟩

/-- Settles O24: a table of four rows over what the acquire step can do, and its frame. -/
theorem trsAcquire : Obligations.TrsAcquire := by
  unfold Obligations.TrsAcquire
  intro s c
  refine ⟨_, exec_trs c s, ?_⟩
  rcases acquire_cases c s with ⟨hs, h⟩ | ⟨hs | hs, h⟩ | ⟨hs, h⟩ <;> rw [h] <;> simp +contextual [hs]

/-- Settles O25: the release step follows the acquire step with the frame as it was. -/
theorem trsDelivers : Obligations.TrsDelivers := by
  unfold Obligations.TrsDelivers
  intro s c f hs hf
  refine ⟨_, _, exec_trs c s, cStep_acquire_doneWriting hs hf, fun hv => ?_, fun hv => ?_, ?_⟩
  · simp [decodeResponse_of_valid hv]
  · simp [decodeResponse_of_invalid hv]
  · obtain ⟨r, hr, -⟩ := decodeResponse_eq_respond f (setState c .idle s)
    rw [hr]
    simp +contextual

/-- Settles O26: the state test comes before the read. -/
theorem releaseStops : Obligations.ReleaseStops := by
  unfold Obligations.ReleaseStops
  intro s c ws hw
  rw [cStep_of_work hw]
  exact ⟨release_of_not_reading (s := { s with cWork := ws }), release_of_unwritten (s := { s with cWork := ws })⟩

/-- Settles O27: the second acquire step leaves `Idle`, and the release step needs `Reading`. -/
theorem reentrantRead : Obligations.ReentrantRead := by
  unfold Obligations.ReentrantRead
  intro s c ws hw hs
  have hidle : ((acquire c s).buf c).state ≠ .reading := by simp [acquire_reading hs]
  have hwork : (acquire c s).cWork = s.cWork := by simp [acquire_reading hs]
  refine ⟨_, exec_trs c s, ?_, ?_, hwork, (releaseStops _ c ws (hwork.trans hw)).1 hidle⟩ <;>
    simp [acquire_reading hs]

end Sys2Proof.Machine

namespace Sys2Proof.Machine

/-! ## Bytes of agent P while a frame is unread (R60, R103, R109) -/

theorem sameOutsideBuffers.refl (s : State) : sameOutsideBuffers s s := ⟨rfl, rfl, rfl, rfl, rfl, rfl, rfl, rfl⟩

theorem sameOutsideBuffers.trans {s t u : State} (h : sameOutsideBuffers s t) (h' : sameOutsideBuffers t u) :
    sameOutsideBuffers s u := by
  obtain ⟨hmc, hwd, hwork, hpIn, hcIn, hcOut, hturns, hfree⟩ := h
  obtain ⟨hmc', hwd', hwork', hpIn', hcIn', hcOut', hturns', hfree'⟩ := h'
  exact ⟨hmc'.trans hmc, hwd'.trans hwd, hwork'.trans hwork, hpIn'.trans hpIn, hcIn'.trans hcIn, hcOut'.trans hcOut,
    hturns'.trans hturns, hfree'.trans hfree⟩

/-- What every `WRB` keeps holds after any number of them. -/
theorem feedAll_keeps {I : State → Prop} (hI : ∀ c b s t, I s → wrbStep Config.params c b s = .next t → I t)
    {ops : List (Channel × Byte)} {s t : State} (hs : I s) (h : feedAll ops s = .next t) : I t := by
  induction ops generalizing s with
  | nil => exact Host.Outcome.next.inj h ▸ hs
  | cons op ops ih =>
    obtain ⟨u, hu, hrest⟩ := andThen_next.1 h
    exact ih (hI op.1 op.2 s u hs hu) hrest

theorem feedAll_sameOutsideBuffers {ops : List (Channel × Byte)} {s t : State} (h : feedAll ops s = .next t) :
    sameOutsideBuffers s t :=
  feedAll_keeps (I := sameOutsideBuffers s) (fun _ _ _ _ hs hw => hs.trans (wrbStep_sameOutsideBuffers hw)) (.refl s) h

/-- The buffer of channel `c` is `Reading`, and its storage holds the frame `f`. -/
def ReadingFrame (c : Channel) (f : Frame) (s : State) : Prop := (s.buf c).state = .reading ∧ readFrame s c = some f

/-- A `WRB` in the read window stores in no frame but another channel's and leaves the buffer `Reading`. -/
theorem readingFrame_wrbStep {c d : Channel} {b : Byte} {f : Frame} {s t : State} (h : ReadingFrame c f s)
    (hw : wrbStep Config.params d b s = .next t) : ReadingFrame c f t := by
  obtain ⟨hs, hf⟩ := h
  refine ⟨?_, readFrame_congr hf fun i hi => ?_⟩
  · by_cases hd : c = d
    · subst hd
      obtain rfl := Host.Outcome.next.inj ((wrbStep_of_unread (.inr hs)).symm.trans hw)
      simp [hs]
    · obtain ⟨-, hne, -⟩ := wrbFrame s t d b hw
      rw [hne c hd, hs]
  · rcases storageMove_wrbStep hw with hm | ⟨e, j, b', he, hm⟩ <;> rw [hm]
    have hce : c ≠ e := by
      rintro rfl
      simp [hs] at he
    exact Memory.read_write_ne _ _ fun ha => hce ((frameAddr_inj hi j.isLt).1 ha).1

/-- Every byte that arrives while the frame is unread is answered `Overrun` and lost. -/
theorem feed_of_unread {c : Channel} {bs : List Byte} {s : State}
    (h : (s.buf c).state = .doneWriting ∨ (s.buf c).state = .reading) :
    ∃ t, feed c bs s = .next t ∧ t.pOut = s.pOut ++ List.replicate bs.length (.error .overrun) ∧ t.mem = s.mem := by
  induction bs generalizing s with
  | nil => exact ⟨s, rfl, by simp, rfl⟩
  | cons b bs ih =>
    obtain ⟨t, ht, hbuf, hmem, -, hout, -⟩ := wrbOverrun s c b h
    obtain ⟨u, hu, huout, humem⟩ := ih (s := t) (by simpa [hbuf] using h)
    refine ⟨u, andThen_next.2 ⟨t, ht, hu⟩, ?_, humem.trans hmem⟩
    simp [huout, hout, List.replicate_succ]

/-- The decoder's answer depends on the frame only. -/
theorem decodeResponse_answer (f : Frame) : ∃ r, ∀ s, decodeResponse f s = respond .c r s := by
  by_cases h : f.f9 = checksum8 f
  · exact ⟨_, decodeResponse_of_valid h⟩
  · exact ⟨_, decodeResponse_of_invalid h⟩

/-- Settles O28: agent P's bytes change neither the frame being read nor what the release step answers with. -/
theorem readWindow : Obligations.ReadWindow := by
  unfold Obligations.ReadWindow
  intro s c ws f hw hs hf
  refine ⟨fun ops t ht => ?_, fun bs => feed_of_unread (.inr hs)⟩
  obtain ⟨-, -, hwork, -, -, hout, -⟩ := feedAll_sameOutsideBuffers ht
  obtain ⟨hts, htf⟩ := feedAll_keeps (fun _ _ _ _ => readingFrame_wrbStep) ⟨hs, hf⟩ ht
  obtain ⟨r, hr⟩ := decodeResponse_answer f
  refine ⟨_, _, cStep_of_release (hwork.trans hw) hts htf, cStep_of_release hw hs hf, ?_, ?_, ?_, ?_⟩
  · simp [hr, hout]
  · simp [hr]
  · simp
  · exact readFrame_congr htf fun i _ => by simp

end Sys2Proof.Machine

namespace Sys2Proof.Machine

/-! ## Delivery of a frame (R110, R111) -/

/-- Agent P has written the bytes `bs` of a frame to channel `c`: they are in storage, and the buffer waits for the
next one or, after the tenth, publishes the frame. -/
structure Received (c : Channel) (bs : List Byte) (s : State) : Prop where
  stored : ∀ i, i < bs.length → Memory.read s.mem (frameAddr c i) = bs[i]?
  waiting : bs.length < 10 →
    ((s.buf c).state = .idle ∨ (s.buf c).state = .writing) ∧ (wrbIndex (s.buf c)).toNat = bs.length
  complete : bs.length = 10 → s.buf c = ⟨.doneWriting, 0⟩

theorem received_nil {c : Channel} {s : State} (h : (s.buf c).state = .idle) : Received c [] s :=
  ⟨nofun, fun _ => ⟨.inl h, by simp [wrbIndex_of_idle h]⟩, nofun⟩

theorem Received.readFrame_eq {c : Channel} {f : Frame} {s : State} (h : Received c f.toList s) :
    readFrame s c = some f := readFrame_eq_some.2 h.stored

/-- The next byte of a frame is accepted (R101, R108). -/
theorem Received.wrb {c : Channel} {bs : List Byte} {b : Byte} {s : State} (h : Received c bs s)
    (hlen : bs.length < 10) (hb : bs.length = 0 → b = Config.params.startMarker) :
    ∃ t, exec (.wrb c b) s = .next t ∧ t.pOut = s.pOut ++ [.ok] ∧ Received c (bs ++ [b]) t := by
  obtain ⟨hs, hi⟩ := h.waiting hlen
  obtain ⟨t, ht, hbuf, hread, hbytes, -, hout, -⟩ := wrb_stores hlen hs hi hb
  refine ⟨t, ht, hout, fun j hj => ?_, fun hlt => ?_, fun hten => ?_⟩ <;>
    rw [List.length_append, List.length_singleton] at *
  · by_cases hjl : j = bs.length
    · subst hjl
      simpa using hread
    · have hj' : j < bs.length := by omega
      have hne : frameAddr c j ≠ frameAddr c bs.length := fun ha =>
        hjl ((frameAddr_inj (by omega) hlen).1 ha).2
      rw [hbytes _ hne, h.stored j hj', List.getElem?_append_left hj']
  · rw [if_neg (by omega)] at hbuf
    refine ⟨.inr (by rw [hbuf]), ?_⟩
    rw [hbuf, wrbIndex_of_writing rfl, BitVec.toNat_ofNat]
    omega
  · rwa [if_pos (by omega)] at hbuf

/-- The rest of a frame that begins with the start marker is accepted byte by byte. -/
theorem Received.feed {c : Channel} {pre bs : List Byte} {s : State} (h : Received c pre s)
    (hlen : (pre ++ bs).length ≤ 10) (hhead : (pre ++ bs).head? = some Config.params.startMarker) :
    ∃ t, feed c bs s = .next t ∧ t.pOut = s.pOut ++ List.replicate bs.length .ok ∧ Received c (pre ++ bs) t := by
  induction bs generalizing pre s with
  | nil => exact ⟨s, rfl, by simp, by simpa using h⟩
  | cons b bs ih =>
    have hpre : pre.length < 10 := by
      simp only [List.length_append, List.length_cons] at hlen
      omega
    obtain ⟨t, ht, hout, hr⟩ := h.wrb hpre fun h0 => by
      simpa [List.length_eq_zero_iff.1 h0] using hhead
    obtain ⟨u, hu, huout, hur⟩ := ih hr (by simpa using hlen) (by simpa using hhead)
    refine ⟨u, andThen_next.2 ⟨t, ht, hu⟩, ?_, by simpa using hur⟩
    simp [huout, hout, List.replicate_succ]

/-- Bytes for one channel are bytes for any channels. -/
theorem feed_eq_feedAll (c : Channel) (bs : List Byte) (s : State) :
    feed c bs s = feedAll (bs.map fun b => (c, b)) s := by
  induction bs generalizing s with
  | nil => rfl
  | cons b bs ih => exact congrArg (andThen (exec (.wrb c b) s)) (funext ih)

/-- Settles O29: the ten bytes publish the frame, the two steps of `TRS` deliver it and leave `Idle`. -/
theorem deliveryExactlyOnce : Obligations.DeliveryExactlyOnce := by
  unfold Obligations.DeliveryExactlyOnce
  intro s c f hs h0 hv
  obtain ⟨t, ht, hout, hr⟩ := (received_nil hs).feed (bs := f.toList) (Nat.le_refl 10) (congrArg some h0)
  have hbuf : t.buf c = ⟨.doneWriting, 0⟩ := hr.complete rfl
  obtain ⟨-, -, -, -, -, hcOut, -⟩ := feedAll_sameOutsideBuffers ((feed_eq_feedAll c f.toList s).symm.trans ht)
  obtain ⟨u, v, hu, hstep, hsample, -, hvbuf, -⟩ := trsDelivers t c f (by rw [hbuf]) hr.readFrame_eq
  rw [hbuf] at hvbuf
  have hnone : acquire c v = respond .c .noSample v := acquire_none (.inl (by rw [hvbuf]))
  exact ⟨t, u, v, _, ht, hout, hbuf, hu, hstep, by rw [hsample hv, hcOut], hvbuf, exec_trs c v, by rw [hnone]; rfl⟩

/-- A whole `TRS` that answers with a sample took a complete frame and leaves the buffer `Idle`. -/
theorem runOp_trs_sample_idle {c : Channel} {smp : Sample} {s t : State} (hq : s.cQuiet)
    (h : runOp (.trs c) s = .next t) (hout : t.cOut = s.cOut ++ [.sample smp]) : (t.buf c).state = .idle := by
  obtain ⟨hnil, hin⟩ := hq
  rw [runOp, exec_trs, andThen_of_next] at h
  rcases acquire_cases c s with ⟨-, ha⟩ | ⟨-, ha⟩ | ⟨-, ha⟩ <;> rw [ha] at h
  · obtain ⟨u, hu, hrest⟩ := andThen_next.1 h
    rw [cStep_pushWork] at hu
    obtain ⟨-, f, -, rfl⟩ := release_next.1 hu
    rw [cRun_of_quiet ⟨by simp [hnil], by simp [hin]⟩] at hrest
    obtain rfl := Host.Outcome.next.inj hrest
    obtain ⟨r, hr⟩ := decodeResponse_answer f
    simp [hr]
  all_goals
    rw [cRun_of_quiet ⟨by simp [hnil], by simp [hin]⟩] at h
    obtain rfl := Host.Outcome.next.inj h
    simp at hout

/-- Settles O30: after the read the buffer is `Idle`, and only a complete or a taken frame is answered otherwise. -/
theorem secondReadReturnsNone : Obligations.SecondReadReturnsNone := by
  unfold Obligations.SecondReadReturnsNone
  intro s t c smp hq h hout
  have hnone : ∀ u : State, (u.buf c).state = .idle ∨ (u.buf c).state = .writing →
      exec (.trs c) u = .next (respond .c .noSample u) := fun u hu => by rw [exec_trs, acquire_none hu]
  exact ⟨hnone t (.inl (runOp_trs_sample_idle hq h hout)), fun _ u _ => hnone u⟩

end Sys2Proof.Machine

/-! PROOFS. The family "frame decoder": the round trip of a Sample, and which frames the checksum accepts. -/

namespace Sys2Proof.Machine

/-! ## The round trip of a Sample (R136, R137) -/

/-- `sint_N` undoes `uint_N` on the signed range of `N` bits (R10). -/
theorem sint_uint {n : Nat} (hn : 0 < n) {k : Int} (hlo : -2 ^ (n - 1) ≤ k) (hhi : k < 2 ^ (n - 1)) :
    sint (uint n k) = k := BitVec.toInt_ofInt_eq_self hn hlo hhi

/-- The encoder writes the checksum the decoder recomputes: Checksum8 does not read byte 9 (R131, R136). -/
theorem encodeFrame_checksum (p : Params) (smp : Sample) :
    (encodeFrame p smp).f9 = checksum8 (encodeFrame p smp) := rfl

/-- The decoder reads from an encoded frame the three patterns the encoder wrote (R132, R136). -/
theorem decodeFields_encodeFrame (p : Params) (smp : Sample) :
    decodeFields (encodeFrame p smp) =
      ⟨sint (uint 8 smp.speed), sint (uint 32 smp.angle), sint (uint 16 smp.position)⟩ := by
  simp only [decodeFields, encodeFrame, encodeBody, word_of_bytes, half_of_bytes]

/-- Settles O34: the checksum written is the one recomputed, and in its range each field survives its pattern. -/
theorem sampleRoundTrip : Obligations.SampleRoundTrip := by
  unfold Obligations.SampleRoundTrip
  intro p sp an po hsp hsp' han han' hpo hpo'
  refine decodeFrame_eq_some.2 ⟨encodeFrame_checksum p _, ?_⟩
  have hspeed : sint (uint 8 sp) = sp := sint_uint (by decide) (by omega) (by omega)
  have hangle : sint (uint 32 an) = an := sint_uint (by decide) (by omega) (by omega)
  have hposition : sint (uint 16 po) = po := sint_uint (by decide) (by omega) (by omega)
  rw [decodeFields_encodeFrame, hspeed, hangle, hposition]

/-! ## Validity as the exclusive-or of the ten bytes (R133, R135) -/

/-- The cumulative exclusive-or of bytes, over which R131 and the equivalent form of R133 are stated. -/
def xorBytes (bs : List Byte) : Byte := bs.foldl (· ^^^ ·) 0

theorem xorBytes_cons (b : Byte) (bs : List Byte) : xorBytes (b :: bs) = b ^^^ xorBytes bs := by
  rw [xorBytes, List.foldl_cons, BitVec.xor_comm]
  exact List.foldl_assoc

theorem xorBytes_perm {bs cs : List Byte} (h : bs.Perm cs) : xorBytes bs = xorBytes cs := h.foldl_eq 0

/-- Byte 9 is taken out of the exclusive-or of the frame; the nine others are those Checksum8 complements (R131). -/
theorem xorBytes_toList (f : Frame) : xorBytes f.toList = ~~~(checksum8 f) ^^^ f.f9 := by
  simp [xorBytes, Frame.toList, checksum8]

/-- The step from R131 to the equivalent form of R133: exclusive-or both sides with `x`. -/
theorem xor_eq_allOnes_iff {n : Nat} {x y : BitVec n} : x ^^^ y = BitVec.allOnes n ↔ y = ~~~x := by
  have hx : x ^^^ ~~~x = BitVec.allOnes n := by
    rw [← BitVec.xor_allOnes, ← BitVec.xor_assoc, BitVec.xor_self, BitVec.zero_xor]
  rw [← hx, BitVec.xor_right_inj]

/-- The equivalent form of R133. -/
theorem decodeFrame_isSome_iff (f : Frame) : (decodeFrame f).isSome = true ↔ xorBytes f.toList = 0xFF := by
  calc (decodeFrame f).isSome = true ↔ f.f9 = checksum8 f := by simp [decodeFrame]
    _ ↔ f.f9 = ~~~(~~~(checksum8 f)) := by rw [BitVec.not_not]
    _ ↔ ~~~(checksum8 f) ^^^ f.f9 = BitVec.allOnes 8 := xor_eq_allOnes_iff.symm
    _ ↔ xorBytes f.toList = 0xFF := by rw [xorBytes_toList]; rfl

/-- Settles O35: the equivalent form of R133, and exclusive-or does not depend on the order of the bytes. -/
theorem validityIsOfTheBytes : Obligations.ValidityIsOfTheBytes := by
  unfold Obligations.ValidityIsOfTheBytes
  refine ⟨decodeFrame_isSome_iff, fun f g h => ?_⟩
  rw [Bool.eq_iff_iff, decodeFrame_isSome_iff, decodeFrame_isSome_iff, xorBytes_perm h]

/-! ## A single byte error (R135) -/

/-- Replacing one byte keeps the exclusive-or only if the new byte is the old one: bring that byte to the front and
cancel the others. -/
theorem xorBytes_set_eq_iff {bs : List Byte} {i : Nat} (hi : i < bs.length) (b : Byte) :
    xorBytes (bs.set i b) = xorBytes bs ↔ b = bs[i] := by
  rw [xorBytes_perm (List.set_perm_cons_eraseIdx hi b), ← xorBytes_perm (List.getElem_cons_eraseIdx_perm hi),
    xorBytes_cons, xorBytes_cons, BitVec.xor_left_inj]

/-- Settles O36: the exclusive-or of the changed frame is another one than that of the valid frame, so it is not
`0xFF`. -/
theorem singleByteErrorDetected : Obligations.SingleByteErrorDetected := by
  unfold Obligations.SingleByteErrorDetected
  intro f g i b hi hf hb hg
  have hxor : xorBytes g.toList ≠ xorBytes f.toList := by
    rw [hg, Ne, xorBytes_set_eq_iff (bs := f.toList) hi]
    rintro rfl
    exact hb (List.getElem?_eq_getElem (l := f.toList) hi)
  rw [← Option.not_isSome_iff_eq_none, decodeFrame_isSome_iff, ← (decodeFrame_isSome_iff f).1 hf]
  exact hxor

end Sys2Proof.Machine

/-! PROOFS. The family "motor actuator": the two steps of `SET`, the six of `FSAFE`, and a `SET` while timed out. -/

namespace Sys2Proof.Machine

/-! ## Leg writes as whole operations (R152, R156, R172) -/

theorem cRun_add (m n : Nat) (s : State) : cRun (m + n) s = andThen (cRun m s) (cRun n) := by
  induction m generalizing s with
  | zero => rw [Nat.zero_add]; rfl
  | succ m ih =>
    rw [Nat.succ_add]
    show andThen (cStep s) (cRun (m + n)) = andThen (andThen (cStep s) (cRun m)) (cRun n)
    cases cStep s with
    | next t => exact ih t
    | fault r => rfl
    | refused r => rfl

/-- From a quiet state the steps after the last leg write change nothing, so any number that is enough ends in the
same state. -/
theorem cRun_afterWrites_of_quiet {ws : List LegWrite} {n : Nat} {s : State} (hq : s.cQuiet) (hn : ws.length ≤ n) :
    cRun n (afterWrites ws false s) = .next (respond .c .ok { s with mc := applyWrites ws s.mc }) := by
  obtain ⟨k, rfl⟩ := Nat.exists_eq_add_of_le hn
  rw [cRun_add, cRun_afterWrites, andThen_of_next]
  exact cRun_of_quiet (s := respond .c .ok { s with mc := applyWrites ws s.mc }) hq k

theorem cRun_startWrites_of_quiet {ws : List LegWrite} {n : Nat} {s : State} (hq : s.cQuiet)
    (hn : ws.length ≤ n + 1) :
    cRun n (startWrites ws false s) = .next (respond .c .ok { s with mc := applyWrites ws s.mc }) := by
  cases ws with
  | nil => exact cRun_afterWrites_of_quiet (ws := []) hq n.zero_le
  | cons w ws => exact cRun_afterWrites_of_quiet (s := legWrite w s) hq (Nat.le_of_succ_le_succ hn)

/-- Operations that write legs change nothing but the legs, the operation in progress and the response. -/
theorem sameOutsideLegs_afterWrites (ws : List LegWrite) (clears : Bool) (mc : PerChannel MotorChannel) (s : State) :
    sameOutsideLegs s (afterWrites ws clears { s with mc := mc }) := by
  simp [sameOutsideLegs]

/-! ## SET (R152 to R154) -/

/-- The leg a command grounds in its first step (R152): leg B for a positive command, else leg A. -/
def losingSide (v : Half) : LegSide := if 0 < v.toInt then .b else .a

/-- The first of the two writes of `SET` grounds the losing leg (R152). -/
theorem setWrites_grounds_losing (c : Channel) (v : Half) :
    ∃ w, setWrites c v = [⟨c, losingSide v, .ground⟩, w] := by
  unfold losingSide
  rcases setWrites_eq c v with ⟨hv, h⟩ | ⟨hv, h⟩ | ⟨hv, h⟩ <;> unfold sint at hv
  · exact ⟨_, by rw [h, if_neg (by omega)]⟩
  · exact ⟨_, by rw [h, if_pos hv]⟩
  · exact ⟨_, by rw [h, if_neg (by omega)]⟩

theorem putLeg_losing_of_nonpos {v : Half} (hv : v.toInt ≤ 0) (m : MotorChannel) :
    m.putLeg (losingSide v) .ground = ⟨.ground, m.b⟩ := by
  rw [losingSide, if_neg (Int.not_lt.2 hv)]
  rfl

theorem putLeg_losing_of_pos {v : Half} (hv : 0 < v.toInt) (m : MotorChannel) :
    m.putLeg (losingSide v) .ground = ⟨m.a, .ground⟩ := by
  rw [losingSide, if_pos hv]
  rfl

theorem commandedLegs_zero : commandedLegs 0 = ⟨.ground, .ground⟩ := rfl

/-- A positive command drives leg A, its duty the command (R153, R154). -/
theorem commandedLegs_of_pos {v : Half} (hv : 0 < v.toInt) :
    ∃ d, commandedLegs v.toInt = ⟨.pwm d, .ground⟩ ∧ (d.toNat : Int) = v.toInt := by
  refine ⟨duty v.toInt, ?_, ?_⟩
  · rw [commandedLegs, if_neg (by omega), if_pos hv]
    rfl
  · have hduty : (duty v.toInt).toNat = v.toInt.natAbs := duty_toNat.1
    omega

/-- A negative command drives leg B, its duty the absolute value of the command, −32768 included (R153, R154). -/
theorem commandedLegs_of_neg {v : Half} (hv : v.toInt < 0) :
    ∃ d, commandedLegs v.toInt = ⟨.ground, .pwm d⟩ ∧ (d.toNat : Int) = -v.toInt := by
  refine ⟨duty v.toInt, ?_, ?_⟩
  · rw [commandedLegs, if_neg (by omega), if_neg (by omega)]
    rfl
  · have hduty : (duty v.toInt).toNat = v.toInt.natAbs := duty_toNat.1
    omega

/-- The two steps of `SET` (R152): the losing leg is grounded and one write is left; that write leaves the legs of
R154 and ends the operation. -/
theorem exec_set_two_steps (c : Channel) (v : Half) (s : State) :
    ∃ w, exec (.set c v) s = .next (afterWrites [w] false (legWrite ⟨c, losingSide v, .ground⟩ s)) ∧
      cStep (afterWrites [w] false (legWrite ⟨c, losingSide v, .ground⟩ s)) =
        .next (respond .c .ok { s with mc := s.mc.put c (commandedLegs v.toInt) }) := by
  obtain ⟨w, hw⟩ := setWrites_grounds_losing c v
  refine ⟨w, ?_, ?_⟩
  · simp only [exec, execSet, hw, startWrites_cons, performWrite_eq]
  · rw [← applyWrites_setWrites c v s.mc, hw]
    exact cStep_pushWork (.legs w [] false) _

/-- Settles O38: the first step is the write of the losing leg, the second leaves `commandedLegs` on the channel. -/
theorem setDrivesLegs : Obligations.SetDrivesLegs := by
  unfold Obligations.SetDrivesLegs
  intro s c v
  obtain ⟨w, hfirst, hsecond⟩ := exec_set_two_steps c v s
  have ht : (afterWrites [w] false (legWrite ⟨c, losingSide v, .ground⟩ s)).motor c =
      (s.motor c).putLeg (losingSide v) .ground := PerChannel.get_put_same _ _ _
  have hu : (respond .c .ok { s with mc := s.mc.put c (commandedLegs v.toInt) }).motor c = commandedLegs v.toInt :=
    PerChannel.get_put_same _ _ _
  refine ⟨_, _, hfirst, hsecond, fun hv => ht.trans (putLeg_losing_of_nonpos hv _),
    fun hv => ht.trans (putLeg_losing_of_pos hv _), fun hv => ?_, fun hv => ?_, fun hv => ?_,
    fun d hd => ⟨PerChannel.get_put_ne _ _ hd, PerChannel.get_put_ne _ _ hd⟩, rfl, rfl, rfl,
    sameOutsideLegs_afterWrites [w] false _ s, sameOutsideLegs_afterWrites [] false _ s⟩
  · rw [hu, hv, commandedLegs_zero]
  · rw [hu]
    exact commandedLegs_of_pos hv
  · rw [hu]
    exact commandedLegs_of_neg hv

/-- A whole `SET` from a quiet state leaves the legs of R154 on its channel and answers `Ok`. -/
theorem runOp_set (c : Channel) (v : Half) {s : State} (hq : s.cQuiet) :
    runOp (.set c v) s = .next (respond .c .ok { s with mc := s.mc.put c (commandedLegs v.toInt) }) := by
  rw [← applyWrites_setWrites c v s.mc]
  exact cRun_startWrites_of_quiet hq (by rw [setWrites_length]; decide)

/-! ## FSAFE (R156) -/

/-- The six writes ground every leg, whatever the legs were (R156). -/
theorem applyWrites_failSafeWrites (mc : PerChannel MotorChannel) : applyWrites failSafeWrites mc = allGround := rfl

/-- Settles O40: the six writes of `FSAFE` are its first step and five more. -/
theorem fsafeGroundsAll : Obligations.FsafeGroundsAll := by
  unfold Obligations.FsafeGroundsAll
  intro s
  have hrun := cRun_startWrites (ws := failSafeWrites) (n := 5) rfl false s
  rw [applyWrites_failSafeWrites] at hrun
  exact ⟨_, _, rfl, hrun, rfl, rfl, rfl, rfl, rfl, rfl, rfl, rfl,
    sameOutsideLegs_afterWrites failSafeWrites.tail false _ s, sameOutsideLegs_afterWrites [] false _ s⟩

/-! ## A `SET` while timed out (R161, R231) -/

/-- The increment never lowers the counter (R173). -/
theorem le_incSat (p : Params) (n : Nat) : n ≤ incSat p n := by
  unfold incSat
  split <;> omega

/-- A block that is timed out stays so through the count step of a `TICK`. -/
theorem timedOut_incSat {p : Params} {s : State} (h : timedOut p s = true) :
    timedOut p (setCount (incSat p s.wd) s) = true :=
  decide_eq_true ((of_decide_eq_true h).trans (le_incSat p s.wd))

/-- A whole `TICK` that ends its count step timed out grounds all legs and answers `Ok` (R172). -/
theorem runOp_tick_of_timedOut {s : State} (hq : s.cQuiet)
    (h : timedOut Config.params (setCount (incSat Config.params s.wd) s) = true) :
    runOp .tick s = .next (respond .c .ok { setCount (incSat Config.params s.wd) s with mc := allGround }) := by
  show cRun 6 (tickStep Config.params s) = _
  rw [tickStep, if_pos h]
  exact cRun_afterWrites_of_quiet (ws := failSafeWrites) hq (Nat.le_refl 6)

/-- Settles O44: `SET` writes only its channel's legs and a step of agent P writes none, so the block is still timed
out and quiet at the next `TICK`, whose count step keeps it timed out. -/
theorem directSetLastsUntilTick : Obligations.DirectSetLastsUntilTick := by
  unfold Obligations.DirectSetLastsUntilTick
  intro s c v hq htimed
  refine ⟨_, _, runOp_set c v hq, PerChannel.get_put_same _ _ _, rfl, fun p hp => ?_,
    runOp_tick_of_timedOut hq (timedOut_incSat htimed), rfl⟩
  obtain ⟨hmc, -⟩ := producerTouchesOnlyBuffers _ p hp
  exact hmc

end Sys2Proof.Machine

/-! PROOFS. The family "watchdog and host command": the count step of `TICK`, which steps change the counter, and the
counter and the legs over whole operations. -/

namespace Sys2Proof.Machine

/-! ## The saturating count and the threshold (R8, R172, R173) -/

theorem wdThreshold_le_wdMax (p : Params) : p.wdThreshold ≤ p.wdMax :=
  Nat.mod_lt _ (Nat.sub_pos_of_lt (Nat.one_lt_two_pow (Nat.succ_ne_zero _)))

/-- Saturation does not hide the threshold, because `WD_THRESHOLD` is at most `WD_MAX` (R8). -/
theorem wdThreshold_le_min_iff (p : Params) (n : Nat) : p.wdThreshold ≤ min n p.wdMax ↔ p.wdThreshold ≤ n :=
  ⟨fun h => h.trans (Nat.min_le_left _ _), fun h => Nat.le_min.2 ⟨h, wdThreshold_le_wdMax p⟩⟩

theorem incSat_of_lt {p : Params} {n : Nat} (h : n < p.wdMax) : incSat p n = n + 1 := if_pos h

theorem incSat_of_le {p : Params} {n : Nat} (h : p.wdMax ≤ n) : incSat p n = n := if_neg (Nat.not_lt.2 h)

theorem incSat_eq_or (p : Params) (n : Nat) : incSat p n = n ∨ incSat p n = n + 1 :=
  (Nat.lt_or_ge n p.wdMax).symm.imp incSat_of_le incSat_of_lt

/-- One more tick after `n` of them, counted saturating. -/
theorem incSat_min (p : Params) (n : Nat) : incSat p (min n p.wdMax) = min (n + 1) p.wdMax := by
  rcases Nat.lt_or_ge n p.wdMax with h | h
  · rw [Nat.min_eq_left h.le, incSat_of_lt h, Nat.min_eq_left h]
  · rw [Nat.min_eq_right h, incSat_of_le (Nat.le_refl _), Nat.min_eq_right (h.trans n.le_succ)]

/-! ## The two rows of `TICK` (R172) -/

theorem exec_tick (s : State) : exec .tick s = .next (tickStep Config.params s) := rfl

/-- Below the threshold after the increment, `TICK` counts, answers `Ok` and is over. -/
theorem tickStep_of_below {p : Params} {s : State} (h : incSat p s.wd < p.wdThreshold) :
    tickStep p s = respond .c .ok (setCount (incSat p s.wd) s) := by
  have hnot : ¬ timedOut p (setCount (incSat p s.wd) s) = true := fun ht => Nat.not_le.2 h (of_decide_eq_true ht)
  rw [tickStep, if_neg hnot, afterWrites_nil_false]

/-- From the threshold on, `TICK` counts and has the six fail-safe leg writes still to do. -/
theorem tickStep_of_timedOut {p : Params} {s : State} (h : p.wdThreshold ≤ incSat p s.wd) :
    tickStep p s = afterWrites failSafeWrites false (setCount (incSat p s.wd) s) := by
  have ht : timedOut p (setCount (incSat p s.wd) s) = true := decide_eq_true h
  rw [tickStep, if_pos ht]

/-- The count step writes only the counter, the operation in progress and the C response port. -/
theorem tickStep_frame (p : Params) (s : State) :
    (tickStep p s).tb = s.tb ∧ (tickStep p s).mem = s.mem ∧ (tickStep p s).pIn = s.pIn ∧
      (tickStep p s).pOut = s.pOut ∧ (tickStep p s).turns = s.turns ∧ (tickStep p s).freeTurns = s.freeTurns := by
  simp [tickStep]

/-- Settles O42: the counter is `incSat`, and the threshold decides between the two rows; the six writes are the next
six steps. -/
theorem tickCounts : Obligations.TickCounts := by
  unfold Obligations.TickCounts
  intro s
  obtain ⟨htb, hmem, hpIn, hpOut, hturns, hfree⟩ := tickStep_frame Config.params s
  refine ⟨_, exec_tick s, fun h => (tickStep_wd _ s).trans (incSat_of_lt h),
    fun h => (tickStep_wd _ s).trans (incSat_of_le h), tickStep_mc _ s, htb, fun a => by rw [hmem], hpIn,
    tickStep_cIn _ s, hpOut, hturns, hfree, fun h => ?_, fun h => ?_⟩ <;> rw [tickStep_wd] at h
  · rw [tickStep_of_below h]
    exact ⟨rfl, rfl⟩
  · rw [tickStep_of_timedOut h]
    have hrun := cRun_afterWrites failSafeWrites false (setCount (incSat Config.params s.wd) s)
    rw [applyWrites_failSafeWrites] at hrun
    exact ⟨rfl, rfl, _, hrun, rfl, rfl, rfl, rfl, rfl, rfl, rfl, rfl, rfl, rfl, rfl⟩

/-! ## A `CMD` of another length (R175, R232) -/

/-- Settles O47: it is the refusal arm of `CMD`. -/
theorem cmdOfWrongLengthDropped : Obligations.CmdOfWrongLengthDropped := by
  unfold Obligations.CmdOfWrongLengthDropped
  exact fun s p hp => exec_cmd_of_wrong_length hp s

/-! ## Which steps change the counter (R31, R176) -/

/-- The first step of an operation changes the counter exactly if the operation is `TICK`. -/
theorem exec_wd {i : Instr} {s t : State} (h : exec i s = .next t) :
    t.wd = if i = .tick then incSat Config.params s.wd else s.wd := by
  cases hi : i.port with
  | p =>
    obtain ⟨c, b, rfl⟩ := port_p hi
    obtain ⟨-, hwd, -⟩ := wrbStep_sameOutsideBuffers h
    exact hwd
  | c =>
    rcases exec_c_cases hi s with ⟨c, rfl, he⟩ | ⟨f, rfl, he⟩ | ⟨w, ws, clears, -, -, hne, he⟩ | ⟨rfl, he⟩ |
        ⟨p, rfl, -, he⟩ <;>
      obtain rfl := Host.Outcome.next.inj (he.symm.trans h)
    · exact acquire_wd c s
    · exact decodeResponse_wd f s
    · rw [if_neg hne, performWrite_eq, afterWrites_wd, legWrite_wd]
    · exact tickStep_wd _ s
    · rfl

/-- After a step that writes legs the operation is over, or what is left of it clears the counter as the whole would. -/
theorem afterWrites_cWork (ws : List LegWrite) (clears : Bool) (s : State) :
    ((afterWrites ws clears s).cWork = s.cWork ∧ clears = false) ∨
    ∃ w, (afterWrites ws clears s).cWork = w :: s.cWork ∧ w.clears = clears ∧
      w.remaining = ws.length + if clears then 1 else 0 := by
  rcases afterWrites_cases ws clears s with ⟨w, h, ⟨lw, rest, rfl, rfl⟩ | ⟨rfl, rfl, rfl⟩⟩ | ⟨rfl, rfl, h⟩ <;> rw [h]
  · exact .inr ⟨_, rfl, rfl, by simp [Work.remaining, Nat.add_comm 1]⟩
  · exact .inr ⟨_, rfl, rfl, rfl⟩
  · exact .inl ⟨rfl, rfl⟩

/-- What is left after a step that writes legs ends with the counter clear only if the whole does. -/
theorem afterWrites_clears_imp {P : Prop} {clears : Bool} (hP : clears = true → P) (ws : List LegWrite) (s : State) :
    (afterWrites ws clears s).cWork = s.cWork ∨
      ∃ w, (afterWrites ws clears s).cWork = w :: s.cWork ∧ (w.clears = true → P) :=
  (afterWrites_cWork ws clears s).imp And.left fun ⟨w, hwork, hclears, _⟩ => ⟨w, hwork, fun hw => hP (hclears ▸ hw)⟩

/-- The first step of an operation leaves work that ends with the counter clear only if it is an accepted `CMD`. -/
theorem exec_cWork {i : Instr} {s t : State} (h : exec i s = .next t) :
    t.cWork = s.cWork ∨ ∃ w, t.cWork = w :: s.cWork ∧ (w.clears = true → acceptedCmd i) := by
  cases hi : i.port with
  | p =>
    obtain ⟨c, b, rfl⟩ := port_p hi
    obtain ⟨-, -, hwork, -⟩ := wrbStep_sameOutsideBuffers h
    exact .inl hwork
  | c =>
    rcases exec_c_cases hi s with ⟨c, -, he⟩ | ⟨f, -, he⟩ | ⟨w, ws, clears, hacc, -, -, he⟩ | ⟨-, he⟩ |
        ⟨p, -, -, he⟩ <;>
      obtain rfl := Host.Outcome.next.inj (he.symm.trans h)
    · rcases acquire_cases c s with ⟨-, ha⟩ | ⟨-, ha⟩ | ⟨-, ha⟩ <;> rw [ha]
      · exact .inr ⟨.release c, rfl, nofun⟩
      · exact .inl rfl
      · exact .inl rfl
    · exact .inl (decodeResponse_cWork f s)
    · exact afterWrites_clears_imp hacc ws (legWrite w s)
    · exact afterWrites_clears_imp nofun _ (setCount (incSat Config.params s.wd) s)
    · exact .inl rfl

/-- The next step of an operation in progress either ends it, and clears the counter if the operation is to, or leaves
the counter and less work of the same kind. -/
theorem continueWork_count {w : Work} {s t : State} (h : continueWork w s = .next t) :
    (t.cWork = s.cWork ∧ (w = .clearCount ∧ t.wd = 0 ∨ w.clears = false ∧ t.wd = s.wd)) ∨
    ∃ w', t.cWork = w' :: s.cWork ∧ w'.clears = w.clears ∧ w'.remaining < w.remaining ∧ t.wd = s.wd := by
  rcases continueWork_next h with ⟨c, f, rfl, -, -, rfl⟩ | ⟨lw, rest, clears, rfl, rfl⟩ | ⟨rfl, rfl⟩
  · exact .inl ⟨decodeResponse_cWork f _, .inr ⟨rfl, decodeResponse_wd f _⟩⟩
  · have hwd : (afterWrites rest clears (legWrite lw s)).wd = s.wd := afterWrites_wd rest clears (legWrite lw s)
    rcases afterWrites_cWork rest clears (legWrite lw s) with ⟨hwork, hclears⟩ | ⟨w', hwork, hclears, hleft⟩
    · exact .inl ⟨hwork, .inr ⟨hclears, hwd⟩⟩
    · refine .inr ⟨w', hwork, hclears, ?_, hwd⟩
      rw [hleft]
      simp only [Work.remaining]
      omega
  · exact .inl ⟨rfl, .inl ⟨rfl, rfl⟩⟩

/-- What a step of agent C does to the counter. -/
theorem cStep_wd {s t : State} (h : cStep s = .next t) :
    t.wd = s.wd ∨ t.wd = incSat Config.params s.wd ∨ (t.wd = 0 ∧ ∃ ws, s.cWork = .clearCount :: ws) := by
  rcases cStep_next h with ⟨-, -, rfl⟩ | ⟨w, ws, hw, hc⟩ | ⟨bs, rest, -, -, ⟨r, -, rfl⟩ | ⟨i, -, -, he⟩⟩
  · exact .inl rfl
  · rcases continueWork_count hc with ⟨-, ⟨rfl, hwd⟩ | ⟨-, hwd⟩⟩ | ⟨_, -, -, -, hwd⟩
    · exact .inr (.inr ⟨hwd, ws, hw⟩)
    · exact .inl hwd
    · exact .inl hwd
  · exact .inl rfl
  · have hwd := exec_wd he
    split at hwd
    · exact .inr (.inl hwd)
    · exact .inl hwd

/-- Settles O48: agent P leaves the counter, agent C changes it in the count step and in the counter clear alone, and
only an accepted `CMD` leaves work that ends with the clear. -/
theorem onlyCommandFeedsWatchdog : Obligations.OnlyCommandFeedsWatchdog := by
  unfold Obligations.OnlyCommandFeedsWatchdog
  refine ⟨fun s t hno h => ?_, fun i s t h => ⟨fun hne => ?_, exec_cWork h⟩⟩
  · obtain ⟨turns, n, hp | hc | ⟨dropP, dropC, rest, hrst, -⟩ | rfl⟩ := step_next h
    · obtain ⟨-, hwd, -⟩ := producerTouchesOnlyBuffers _ t hp
      exact .inl hwd
    · rcases cStep_wd hc with hwd | hwd | hwd
      · exact .inl hwd
      · exact (incSat_eq_or Config.params s.wd).imp hwd.trans (fun hinc => .inl (hwd.trans hinc))
      · exact .inr (.inr hwd)
    · exact absurd hrst (hno dropP dropC rest)
    · exact .inl rfl
  · by_contra hi
    exact hne ((exec_wd h).trans (if_neg hi))

/-! ## The counter over whole operations (R174) -/

/-- An operation in progress that does not clear the counter, given the steps it has left, ends in a quiet state with
the counter as it was. -/
theorem cRun_keeps_count {w : Work} {n : Nat} {s t : State} (hw : s.cWork = [w]) (hin : s.cIn = [])
    (hclears : w.clears = false) (hn : w.remaining ≤ n) (h : cRun n s = .next t) : t.cQuiet ∧ t.wd = s.wd := by
  induction n generalizing w s with
  | zero => exact absurd hn (Nat.not_le.2 w.remaining_pos)
  | succ n ih =>
    obtain ⟨u, hu, hrest⟩ := andThen_next.1 h
    rw [cStep_of_work hw] at hu
    have huin : u.cIn = [] := (continueWork_cIn hu).trans hin
    rcases continueWork_count hu with ⟨hwork, ⟨rfl, -⟩ | ⟨-, hwd⟩⟩ | ⟨w', hwork, hsame, hless, hwd⟩
    · cases hclears
    · have huq : u.cQuiet := ⟨hwork, huin⟩
      rw [cRun_of_quiet huq] at hrest
      obtain rfl := Host.Outcome.next.inj hrest
      exact ⟨huq, hwd⟩
    · obtain ⟨htq, htwd⟩ := ih hwork huin (hsame.trans hclears) (by omega) hrest
      exact ⟨htq, htwd.trans hwd⟩

/-- The first step of an operation takes no request from the C port. -/
theorem exec_cIn {i : Instr} {s t : State} (h : exec i s = .next t) : t.cIn = s.cIn := by
  cases hi : i.port with
  | p =>
    obtain ⟨c, b, rfl⟩ := port_p hi
    obtain ⟨-, -, -, -, hin, -⟩ := wrbStep_sameOutsideBuffers h
    exact hin
  | c => exact exec_c_cIn hi h

/-- The first step of an operation leaves at most six more (R234). -/
theorem remaining_le_of_exec {i : Instr} {w : Work} {s t : State} (h : exec i s = .next t)
    (hwork : t.cWork = w :: s.cWork) : w.remaining ≤ 6 := by
  rcases operationsAreBounded.1 i s t h with hsame | ⟨w', hcons, hle⟩
  · simp [hsame] at hwork
  · obtain rfl : w' = w := by simpa [hwork] using hcons.symm
    exact hle

/-- A whole operation that is no accepted `CMD` ends in a quiet state, and only `TICK` counts. -/
theorem runOp_count {i : Instr} {s t : State} (hq : s.cQuiet) (hi : ¬ acceptedCmd i) (h : runOp i s = .next t) :
    t.cQuiet ∧ t.wd = if i = .tick then incSat Config.params s.wd else s.wd := by
  obtain ⟨hnil, hin⟩ := hq
  obtain ⟨u, hu, hrest⟩ := andThen_next.1 h
  have huin : u.cIn = [] := (exec_cIn hu).trans hin
  rw [← exec_wd hu]
  rcases exec_cWork hu with hwork | ⟨w, hwork, hacc⟩
  · have huq : u.cQuiet := ⟨hwork.trans hnil, huin⟩
    rw [cRun_of_quiet huq] at hrest
    obtain rfl := Host.Outcome.next.inj hrest
    exact ⟨huq, rfl⟩
  · have hclears : w.clears = false := Bool.eq_false_iff.2 fun hw => hi (hacc hw)
    exact cRun_keeps_count (by rw [hwork, hnil]) huin hclears (remaining_le_of_exec hu hwork) hrest

/-- Without an accepted `CMD` the counter goes on by the number of `TICK`s, saturated. -/
theorem runOps_count {ops : List Instr} {n : Nat} {s t : State} (hq : s.cQuiet)
    (hwd : s.wd = min n Config.params.wdMax) (hno : ∀ i, i ∈ ops → ¬ acceptedCmd i) (h : runOps ops s = .next t) :
    t.cQuiet ∧ t.wd = min (n + ops.count .tick) Config.params.wdMax := by
  induction ops generalizing n s with
  | nil =>
    obtain rfl := Host.Outcome.next.inj h
    exact ⟨hq, hwd⟩
  | cons i ops ih =>
    obtain ⟨u, hu, hrest⟩ := andThen_next.1 h
    obtain ⟨huq, huwd⟩ := runOp_count hq (hno i List.mem_cons_self) hu
    have hno' : ∀ j, j ∈ ops → ¬ acceptedCmd j := fun j hj => hno j (List.mem_cons_of_mem i hj)
    rw [hwd, incSat_min] at huwd
    by_cases hi : i = .tick
    · rw [if_pos hi] at huwd
      rw [hi, List.count_cons_self, Nat.add_comm _ 1, ← Nat.add_assoc]
      exact ih huq huwd hno' hrest
    · rw [if_neg hi] at huwd
      rw [List.count_cons_of_ne hi]
      exact ih huq huwd hno' hrest

/-- The `TICK` after `n` of them ends its count step timed out exactly if it is the threshold-th or a later one. -/
theorem wdThreshold_le_incSat_iff {p : Params} {n m : Nat} (hm : m = min n p.wdMax) :
    p.wdThreshold ≤ incSat p m ↔ p.wdThreshold ≤ n + 1 := by
  rw [hm, incSat_min, wdThreshold_le_min_iff]

theorem incSat_lt_wdThreshold_iff {p : Params} {n m : Nat} (hm : m = min n p.wdMax) :
    incSat p m < p.wdThreshold ↔ n + 1 < p.wdThreshold :=
  lt_iff_lt_of_le_iff_le (wdThreshold_le_incSat_iff hm)

/-- A whole accepted `CMD` from a quiet state ends in a quiet state with the counter clear. -/
theorem runOp_acceptedCmd {i : Instr} {s : State} (hq : s.cQuiet) (hi : acceptedCmd i) :
    ∃ t, runOp i s = .next t ∧ t.cQuiet ∧ t.wd = 0 := by
  obtain ⟨p, rfl, hp⟩ := hi
  obtain ⟨hnil, hin⟩ := hq
  rcases execCmd_cases p s with ⟨p0, p1, p2, p3, p4, p5, rfl, -⟩ | ⟨hne, -⟩
  · obtain ⟨t, u, v, ht, hu, hv, -, -, -, -, hwd, -, hwork, -, -, -, hcIn, -⟩ := cmdSetsAndClears s p0 p1 p2 p3 p4 p5
    refine ⟨v, ?_, ⟨hwork.trans hnil, hcIn.trans hin⟩, hwd⟩
    rw [runOp, ht, andThen_of_next, cRun_add 5 1, hu, andThen_of_next, cRun, hv]
    rfl
  · exact absurd hp hne

/-- Settles O43, by induction on the operations: each counts or leaves the counter, and what the next `TICK` does is
decided by the number of `TICK`s. -/
theorem watchdogCountsThroughOtherOperations : Obligations.WatchdogCountsThroughOtherOperations := by
  unfold Obligations.WatchdogCountsThroughOtherOperations
  refine ⟨fun ops s t hq hwd hno h => ?_, fun i s hq hi => runOp_acceptedCmd hq hi⟩
  obtain ⟨htq, htwd⟩ := runOps_count (n := 0) hq (hwd.trans (Nat.zero_min _).symm) hno h
  rw [Nat.zero_add] at htwd
  refine ⟨htq, htwd, _, exec_tick t, fun hlt => ?_, fun hle => ?_⟩
  · rw [tickStep_of_below ((incSat_lt_wdThreshold_iff htwd).2 hlt)]
    exact ⟨htq.1, rfl, rfl⟩
  · rw [tickStep_of_timedOut ((wdThreshold_le_incSat_iff htwd).2 hle)]
    exact congrArg _ htq.1

/-! ## Ticks in a row (R172, R174) -/

/-- What `k` `TICK`s in a row have made of the state `s`, in which no operation was in progress and the counter 0. -/
structure AfterTicks (k : Nat) (s t : State) : Prop where
  quiet : t.cQuiet
  count : t.wd = min k Config.params.wdMax
  answers : t.cOut = s.cOut ++ List.replicate k .ok
  untouched : k < Config.params.wdThreshold → t.mc = s.mc
  grounded : Config.params.wdThreshold ≤ k → t.mc = allGround

theorem afterTicks_zero {s : State} (hq : s.cQuiet) (hwd : s.wd = 0) : AfterTicks 0 s s where
  quiet := hq
  count := hwd.trans (Nat.zero_min _).symm
  answers := (List.append_nil _).symm
  untouched _ := rfl
  grounded h := absurd h (Nat.not_succ_le_zero _)

/-- A whole `TICK` that ends its count step below the threshold counts and answers `Ok`. -/
theorem runOp_tick_of_below {s : State} (hq : s.cQuiet)
    (h : incSat Config.params s.wd < Config.params.wdThreshold) :
    runOp .tick s = .next (respond .c .ok (setCount (incSat Config.params s.wd) s)) := by
  rw [runOp, exec_tick, andThen_of_next, tickStep_of_below h]
  exact cRun_of_quiet (s := respond .c .ok (setCount (incSat Config.params s.wd) s)) hq 6

/-- Below the threshold a whole `TICK` counts and answers; from it on it grounds all legs too. -/
theorem AfterTicks.tick {k : Nat} {s t : State} (h : AfterTicks k s t) :
    ∃ u, runOp .tick t = .next u ∧ AfterTicks (k + 1) s u := by
  have hcount : incSat Config.params t.wd = min (k + 1) Config.params.wdMax := by rw [h.count, incSat_min]
  have hanswers : t.cOut ++ [.ok] = s.cOut ++ List.replicate (k + 1) .ok := by
    rw [h.answers, List.append_assoc, ← List.replicate_succ']
  rcases Nat.lt_or_ge (k + 1) Config.params.wdThreshold with hlt | hge
  · have hbelow := (incSat_lt_wdThreshold_iff h.count).2 hlt
    exact ⟨_, runOp_tick_of_below h.quiet hbelow,
      { quiet := h.quiet, count := hcount, answers := hanswers
        untouched := fun _ => h.untouched (Nat.lt_of_succ_lt hlt)
        grounded := fun hge => absurd hge (Nat.not_le.2 hlt) }⟩
  · have htimed := (wdThreshold_le_incSat_iff h.count).2 hge
    exact ⟨_, runOp_tick_of_timedOut h.quiet (decide_eq_true htimed),
      { quiet := h.quiet, count := hcount, answers := hanswers
        untouched := fun hlt => absurd hge (Nat.not_le.2 hlt), grounded := fun _ => rfl }⟩

theorem runOps_append {ops : List Instr} {s t : State} (h : runOps ops s = .next t) (ops' : List Instr) :
    runOps (ops ++ ops') s = runOps ops' t := by
  induction ops generalizing s with
  | nil =>
    obtain rfl := Host.Outcome.next.inj h
    rfl
  | cons i ops ih =>
    obtain ⟨u, hu, hrest⟩ := andThen_next.1 h
    rw [List.cons_append, runOps, hu, andThen_of_next, ih hrest]

theorem runOps_pseudoTicks {s : State} (hq : s.cQuiet) (hwd : s.wd = 0) (k : Nat) :
    ∃ t, runOps (pseudoTicks k) s = .next t ∧ AfterTicks k s t := by
  induction k with
  | zero => exact ⟨s, rfl, afterTicks_zero hq hwd⟩
  | succ k ih =>
    obtain ⟨t, ht, hafter⟩ := ih
    obtain ⟨u, hu, hafter'⟩ := hafter.tick
    refine ⟨u, ?_, hafter'⟩
    have hsnoc : pseudoTicks (k + 1) = pseudoTicks k ++ [.tick] := List.replicate_succ'
    rw [hsnoc, runOps_append ht, runOps, hu]
    rfl

/-- Settles O45, by induction on the number of ticks. -/
theorem watchdogForcesFailSafe : Obligations.WatchdogForcesFailSafe := by
  unfold Obligations.WatchdogForcesFailSafe
  intro s k hq hwd
  obtain ⟨t, ht, hafter⟩ := runOps_pseudoTicks hq hwd k
  refine ⟨t, ht, hafter.quiet, hafter.count, hafter.answers, hafter.untouched, hafter.grounded, _, exec_tick t,
    fun hlt => ?_, fun hle => ?_⟩
  · rw [tickStep_of_below ((incSat_lt_wdThreshold_iff hafter.count).2 hlt)]
    exact ⟨hafter.quiet.1, rfl⟩
  · rw [tickStep_of_timedOut ((wdThreshold_le_incSat_iff hafter.count).2 hle)]
    exact ⟨rfl, congrArg _ hafter.quiet.1⟩

end Sys2Proof.Machine

/-! PROOFS. The family "exceptions": under the invariants no step of either agent stops, and the read window stays
that of the one `TRS` in progress. -/

namespace Sys2Proof.Machine

/-! ## The read window as an invariant (R37, R109) -/

theorem buf_congr {s t : State} (h : t.tb = s.tb) (c : Channel) : t.buf c = s.buf c := by rw [State.buf, h, State.buf]

theorem readInv_of_idle {s : State} (hw : s.cWork = []) : ReadInv s ↔ ∀ c, (s.buf c).state ≠ .reading := by
  simp [ReadInv, hw]

theorem readInv_of_work {s : State} {w : Work} (hw : s.cWork = [w]) :
    ReadInv s ↔ ∀ c, (s.buf c).state = .reading ↔ w = .release c := by simp [ReadInv, hw]

/-- Under the invariant at most one operation of agent C is in progress (R78). -/
theorem ReadInv.tail_eq_nil {s : State} {w : Work} {ws : List Work} (h : ReadInv s) (hw : s.cWork = w :: ws) :
    ws = [] := by
  obtain ⟨hlen, -⟩ := h
  rw [hw] at hlen
  exact List.length_eq_zero_iff.1 (Nat.le_zero.1 (Nat.le_of_succ_le_succ hlen))

/-- The invariant looks at nothing but the work in progress and which buffers are `Reading`. -/
theorem readInv_congr {s t : State} (hw : t.cWork = s.cWork)
    (hb : ∀ c, (t.buf c).state = .reading ↔ (s.buf c).state = .reading) (h : ReadInv s) : ReadInv t := by
  unfold ReadInv
  simp only [hw, hb]
  exact h

theorem readInv_congr_tb {s t : State} (hw : t.cWork = s.cWork) (htb : t.tb = s.tb) (h : ReadInv s) : ReadInv t :=
  readInv_congr hw (fun c => by rw [buf_congr htb]) h

/-! ### Agent P -/

/-- No byte of agent P begins or ends a read (R101 to R103). -/
theorem reading_iff_of_wrbStep {p : Params} {c : Channel} {b : Byte} {s t : State} (h : wrbStep p c b s = .next t)
    (d : Channel) : (t.buf d).state = .reading ↔ (s.buf d).state = .reading := by
  by_cases hd : d = c
  · subst hd
    rcases wrbStep_next h with ⟨-, rfl⟩ | ⟨-, -, -, rfl⟩ | ⟨hs, -, hi, rfl⟩
    · simp
    · simp
    · rw [respond_buf, storeByte_buf_same hs]
      refine iff_of_false ?_ (by rcases hs with hs | hs <;> simp [hs])
      split <;> simp
  · rcases wrbStep_next h with ⟨-, rfl⟩ | ⟨-, -, -, rfl⟩ | ⟨-, -, hi, rfl⟩
    · simp [hd]
    · simp [hd]
    · rw [respond_buf, storeByte_buf_ne _ _ _ _ hd]

theorem readInv_pStep {s t : State} (h : ReadInv s) (hst : pStep s = .next t) : ReadInv t := by
  rcases pStep_next hst with ⟨-, rfl⟩ | ⟨bs, rest, -, ⟨r, -, rfl⟩ | ⟨c, b, -, hw⟩⟩
  · exact h
  · exact h
  · obtain ⟨-, -, hwork, -⟩ := wrbStep_sameOutsideBuffers hw
    exact readInv_congr (s := { s with pIn := rest }) hwork (reading_iff_of_wrbStep hw) h

/-! ### Agent C -/

/-- What is left of an operation that writes legs is no read. -/
theorem readInv_afterWrites {s : State} (ws : List LegWrite) (clears : Bool) (hw : s.cWork = [])
    (h : ∀ c, (s.buf c).state ≠ .reading) : ReadInv (afterWrites ws clears s) := by
  rcases afterWrites_cases ws clears s with ⟨w, ha, hwork⟩ | ⟨-, -, ha⟩ <;> rw [ha]
  · refine (readInv_of_work (w := w) (by simp [hw])).2 fun c => iff_of_false (h c) ?_
    rcases hwork with ⟨lw, rest, -, rfl⟩ | ⟨-, -, rfl⟩ <;> exact nofun
  · exact (readInv_of_idle (by simpa using hw)).2 (by simpa using h)

/-- The acquire step begins a read of the frame it takes, and of no other (R106). -/
theorem readInv_acquire {s : State} (c : Channel) (hw : s.cWork = []) (h : ∀ d, (s.buf d).state ≠ .reading) :
    ReadInv (acquire c s) := by
  rcases acquire_cases c s with ⟨-, ha⟩ | ⟨-, ha⟩ | ⟨hs, -⟩
  · rw [ha, readInv_of_work (w := .release c) (by simp [hw])]
    intro d
    by_cases hd : d = c
    · simp [hd]
    · simp [hd, h d, Ne.symm hd]
  · rw [ha]
    exact (readInv_of_idle (by simpa using hw)).2 (by simpa using h)
  · exact absurd hs (h c)

/-- The first step of an operation of agent C, begun with no operation in progress. -/
theorem readInv_exec {i : Instr} (hi : i.port = .c) {s t : State} (hw : s.cWork = [])
    (h : ∀ c, (s.buf c).state ≠ .reading) (hst : exec i s = .next t) : ReadInv t := by
  have hs : ReadInv s := (readInv_of_idle hw).2 h
  rcases exec_c_cases hi s with ⟨c, -, he⟩ | ⟨f, -, he⟩ | ⟨w, ws, clears, -, -, -, he⟩ | ⟨-, he⟩ | ⟨p, -, -, he⟩ <;>
    obtain rfl := Host.Outcome.next.inj (he.symm.trans hst)
  · exact readInv_acquire c hw h
  · exact readInv_congr_tb (decodeResponse_cWork f s) (decodeResponse_tb f s) hs
  · exact readInv_afterWrites (s := legWrite w s) ws clears hw h
  · exact readInv_afterWrites (s := setCount (incSat Config.params s.wd) s) _ false hw h
  · exact hs

/-- The next step of the one operation in progress: the release step ends the one read there is (R107). -/
theorem readInv_continueWork {w : Work} {s t : State} (hw : s.cWork = [])
    (h : ∀ c, (s.buf c).state = .reading ↔ w = .release c) (hst : continueWork w s = .next t) : ReadInv t := by
  rcases continueWork_next hst with ⟨c, f, rfl, -, -, rfl⟩ | ⟨lw, rest, clears, rfl, rfl⟩ | ⟨rfl, rfl⟩
  · refine readInv_congr_tb (decodeResponse_cWork f _) (decodeResponse_tb f _) ?_
    refine (readInv_of_idle (by simpa using hw)).2 fun d => ?_
    by_cases hd : d = c
    · simp [hd]
    · simp [hd, h d, Ne.symm hd]
  · exact readInv_afterWrites (s := legWrite lw s) rest clears hw fun c => by simp [h c]
  · exact (readInv_of_idle (by simpa using hw)).2 fun c => by simp [h c]

theorem readInv_cStep {s t : State} (h : ReadInv s) (hst : cStep s = .next t) : ReadInv t := by
  rcases cStep_next hst with ⟨-, -, rfl⟩ | ⟨w, ws, hw, hc⟩ | ⟨bs, rest, hw, -, ⟨r, -, rfl⟩ | ⟨i, -, hi, he⟩⟩
  · exact h
  · obtain rfl := h.tail_eq_nil hw
    exact readInv_continueWork (s := { s with cWork := [] }) rfl ((readInv_of_work hw).1 h) hc
  · exact h
  · exact readInv_exec (s := { s with cIn := rest }) hi hw ((readInv_of_idle hw).1 h) he

/-! ### Every step -/

theorem readInv_of_reset {s : State} (htb : s.tb = State.reset.tb) (hw : s.cWork = []) : ReadInv s := by
  refine (readInv_of_idle hw).2 fun c => ?_
  rw [buf_congr htb, resetValues.1 c]
  exact nofun

theorem step_keeps_readInv {s t : State} (h : ReadInv s) (hst : step s = .next t) : ReadInv t :=
  step_keeps (fun _ _ _ h => h) (fun _ _ => readInv_pStep) (fun _ _ => readInv_cStep)
    (fun _ _ _ _ => readInv_of_reset rfl rfl) h hst

theorem step_keeps_inv {s t : State} (h : Inv s) (hst : step s = .next t) : Inv t := by
  obtain ⟨hmem, hbuf, hread, hlegs, hcount⟩ := h
  exact ⟨stepKeepsStorageCanonical s t hmem hst, stepKeepsBufInv s t hbuf hst, step_keeps_readInv hread hst,
    stepKeepsLegInv s t hlegs hst, stepKeepsCountInv s t hcount hst⟩

end Sys2Proof.Machine

namespace Sys2Proof.Machine

/-! ## No step stops under the invariants (R104, R107, R198; U1, U2, U7) -/

/-- A consecutive read succeeds when every byte holds a value. -/
theorem exists_readBytes {m : Memory} {a n : Nat} (h : ∀ i, i < n → Memory.read m (a + i) ≠ none) :
    ∃ bs, Memory.readBytes m a n = some bs := by
  induction n generalizing a with
  | zero => exact ⟨[], readBytes_zero m a⟩
  | succ n ih =>
    obtain ⟨b, hb⟩ := Option.ne_none_iff_exists'.1 (h 0 (Nat.succ_pos n))
    obtain ⟨bs, hbs⟩ := ih (a := a + 1) fun i hi => by
      rw [Nat.add_assoc, Nat.add_comm 1 i]
      exact h (i + 1) (Nat.succ_lt_succ hi)
    exact ⟨b :: bs, by simp [Memory.readBytes, show Memory.read m a = some b from hb, hbs]⟩

/-- The ten-byte read of the release step succeeds when all ten bytes hold values. -/
theorem exists_readFrame {s : State} {c : Channel} (h : ∀ i, i < 10 → holdsByte s c i) :
    ∃ f, readFrame s c = some f := by
  obtain ⟨bs, hbs⟩ := exists_readBytes (m := s.mem) (a := frameAddr c 0) (n := 10) fun i hi => by
    simpa [holdsByte, frameAddr] using h i hi
  obtain ⟨hlen, -⟩ := readBytes_eq_some.1 hbs
  obtain ⟨f, hf⟩ := Option.ne_none_iff_exists'.1 fun hnone => ofList_eq_none_iff.1 hnone hlen
  exact ⟨f, by simp [readFrame, hbs, hf]⟩

/-- In `Reading` the frame is complete (R25). -/
theorem bufferInv.exists_readFrame_of_reading {m : Byte} {s : State} {c : Channel} (h : bufferInv m s c)
    (hs : (s.buf c).state = .reading) : ∃ f, readFrame s c = some f := by
  rw [bufferInv_iff, hs] at h
  obtain ⟨-, -, hbytes⟩ := h
  exact exists_readFrame hbytes

/-- In `Writing` the cursor is below ten (R25). -/
theorem bufferInv.cursor_le_nine {m : Byte} {s : State} {c : Channel} (h : bufferInv m s c)
    (hs : (s.buf c).state = .writing) : (s.buf c).cursor.toNat ≤ 9 := by
  rw [bufferInv_iff, hs] at h
  obtain ⟨-, hle, -⟩ := h
  exact hle

/-- Agent P does not meet `BadCursor` (R104; U1). -/
theorem pStep_total {s : State} (h : BufInv s) : ∃ t, pStep s = .next t := by
  cases hp : s.pIn with
  | nil => exact ⟨s, pStep_of_quiet hp⟩
  | cons bs rest =>
    rw [pStep_of_request hp]
    cases hd : decode .p bs with
    | error r => exact ⟨_, serve_of_error hd _⟩
    | ok i =>
      obtain ⟨c, b, rfl⟩ := port_p (decode_port hd)
      rw [serve_of_decode hd, exec_wrb]
      refine wrbStep_total fun ⟨hs, hge⟩ => ?_
      exact absurd (hge.trans ((h c).cursor_le_nine hs)) (by decide)

/-- The operation in progress meets neither `BadRelease` nor a byte that was never written (R38, R107; U2, U7). -/
theorem continueWork_total {w : Work} {s : State} (h : BufInv s)
    (hr : ∀ c, w = .release c → (s.buf c).state = .reading) : ∃ t, continueWork w s = .next t := by
  cases w with
  | release c =>
    obtain ⟨f, hf⟩ := (h c).exists_readFrame_of_reading (hr c rfl)
    exact ⟨_, release_next.2 ⟨hr c rfl, f, hf, rfl⟩⟩
  | legs lw rest clears => exact ⟨_, rfl⟩
  | clearCount => exact ⟨_, rfl⟩

theorem cStep_total {s : State} (h : BufInv s) (hr : ReadInv s) : ∃ t, cStep s = .next t := by
  cases hw : s.cWork with
  | cons w ws =>
    obtain rfl := hr.tail_eq_nil hw
    rw [cStep_of_work hw]
    exact continueWork_total (s := { s with cWork := [] }) h fun c => ((readInv_of_work hw).1 hr c).2
  | nil =>
    cases hc : s.cIn with
    | nil => exact ⟨s, cStep_of_quiet ⟨hw, hc⟩⟩
    | cons bs rest =>
      rw [cStep_of_request hw hc]
      cases hd : decode .c bs with
      | error r => exact ⟨_, serve_of_error hd _⟩
      | ok i =>
        rw [serve_of_decode hd]
        exact exec_c_total (decode_port hd) _

/-- Settles O58: the buffers' invariant excludes `BadCursor` and unwritten bytes, that of the read window excludes
`BadRelease`, and each invariant is kept. -/
theorem invNeverStops : Obligations.InvNeverStops := by
  unfold Obligations.InvNeverStops
  intro s hs
  have ⟨_, hbuf, hread, _, _⟩ := hs
  obtain ⟨t, ht⟩ := step_total (s := s) (fun _ _ => pStep_total hbuf) (fun _ _ => cStep_total hbuf hread)
  exact ⟨t, ht, step_keeps_inv hs ht⟩

end Sys2Proof.Machine

/-! PROOFS. The family "reset and hazards": the intermediate state of a `SET`, and the first operations after reset. -/

namespace Sys2Proof.Machine

/-! ## A change of direction (R230) -/

/-- Settles O39: the first step of `SET` grounds the losing leg and leaves the other, and the losing leg is the driven
one only in a reversal. -/
theorem reversalPassesThroughBrake : Obligations.ReversalPassesThroughBrake := by
  unfold Obligations.ReversalPassesThroughBrake
  intro s c v x
  obtain ⟨t, -, hfirst, -, hgroundsA, hgroundsB, -⟩ := setDrivesLegs s c v
  refine ⟨t, hfirst, fun hs hv => ?_, fun hs hv => ?_, fun hs hv => ?_, fun hs hv => ?_⟩
  · rw [hgroundsA hv.le, hs]
  · rw [hgroundsB hv, hs]
  · rw [hgroundsB hv, hs]
  · rw [hgroundsA hv.le, hs]

/-! ## The first operations after reset (R38, R223) -/

theorem reset_buf (c : Channel) : State.reset.buf c = ⟨.idle, 0⟩ := resetValues.1 c

theorem reset_buf_state (c : Channel) : (State.reset.buf c).state = .idle := by rw [reset_buf]

theorem reset_buf_cursor (c : Channel) : (State.reset.buf c).cursor = 0 := by rw [reset_buf]

/-- Whatever the width of the counter, it has room for one tick (R8). -/
theorem zero_lt_wdMax (p : Params) : 0 < p.wdMax :=
  (Nat.succ_pos _).trans_le (wdThreshold_le_wdMax p)

/-- Settles O51: after reset every buffer is `Idle` with its cursor at 0 already, so a byte that is lost changes nothing
but the response, and the counter is below `WD_MAX`. -/
theorem firstOperationsAfterReset : Obligations.FirstOperationsAfterReset := by
  unfold Obligations.FirstOperationsAfterReset
  refine ⟨fun c => ?_, fun c b hb => ?_, fun c => ?_, ?_⟩
  · rw [exec_trs, acquire_none (.inl (reset_buf_state c))]
  · rw [exec_wrb, wrbStep_of_framing (.inl (reset_buf_state c)) (wrbIndex_of_idle (reset_buf_state c)) hb,
      setCursor_eq_self (reset_buf_cursor c)]
  · obtain ⟨t, ht, hbuf, -, -, -, hout, -⟩ := wrbStartsFrame State.reset c (.inl (reset_buf_state c))
    exact ⟨t, ht, hbuf, hout⟩
  · obtain ⟨t, ht, hcounts, -⟩ := tickCounts State.reset
    exact ⟨t, ht, hcounts (zero_lt_wdMax _)⟩

end Sys2Proof.Machine
